-- ==== Sys2Proof/Word.lean ====
section
/-! DEFINITION. The value widths of the machine (00_scope R4, R5; 10_state R21, R23, R24).
Every value is unsigned; there is no sign extension anywhere (R5, R37). -/

namespace Sys2Proof

/-- One memory byte, one general register, one timer, one immediate `kk` (00_scope R4). -/
abbrev Byte := BitVec 8

/-- The index register, the program counter, a stack entry, an instruction word (10_state R23 to R25, 30_encoding R74). -/
abbrev Word := BitVec 16

/-- The address field `nnn` of an instruction (30_encoding R73). -/
abbrev Addr12 := BitVec 12

/-- The index of a general register: a 4-bit field, so that every index is valid (10_state R21). -/
abbrev RegIndex := Fin 16

/-- The row count `N` of DRW, 0 to 15 (30_encoding R73, R75). -/
abbrev RowCount := Fin 16

/-- `zext_16(v)` of an address field (00_scope R5, 30_encoding R75). -/
abbrev Addr12.toWord (nnn : Addr12) : Word := nnn.setWidth 16

/-- `zext_16(v)` of a register value (00_scope R5). -/
abbrev Byte.toWord (v : Byte) : Word := v.setWidth 16

end Sys2Proof
end

