-- ==== Sys2Proof/Syntax.lean ====
section
/-! DEFINITION. The instructions: one constructor per row of spec/opcode_table.json, 35 in all (30_encoding R76, R83),
in the table's order; and the shape of a row of that table. The operand types have exactly the width the encoding gives
them (30_encoding R73), so that an operand out of range cannot be written. SHR and SHL carry no Y: the field is decoded
and ignored, and all 16 values of it are the same instruction (30_encoding R79, D5). -/

namespace Sys2Proof

/-- The 35 instructions (30_encoding R76, R77). -/
inductive Instr
  | nop
  | cls
  | ret
  | jp (nnn : Addr12)
  | call (nnn : Addr12)
  | seb (x : RegIndex) (kk : Byte)
  | sneb (x : RegIndex) (kk : Byte)
  | se (x y : RegIndex)
  | ldb (x : RegIndex) (kk : Byte)
  | addb (x : RegIndex) (kk : Byte)
  | mov (x y : RegIndex)
  | or (x y : RegIndex)
  | and (x y : RegIndex)
  | xor (x y : RegIndex)
  | add (x y : RegIndex)
  | sub (x y : RegIndex)
  | shr (x : RegIndex)
  | subn (x y : RegIndex)
  | shl (x : RegIndex)
  | sne (x y : RegIndex)
  | ldi (nnn : Addr12)
  | jpv0 (nnn : Addr12)
  | rnd (x : RegIndex) (kk : Byte)
  | drw (x y : RegIndex) (n : RowCount)
  | skp (x : RegIndex)
  | sknp (x : RegIndex)
  | lddt (x : RegIndex)
  | wkey (x : RegIndex)
  | stdt (x : RegIndex)
  | stst (x : RegIndex)
  | addi (x : RegIndex)
  | ldf (x : RegIndex)
  | bcd (x : RegIndex)
  | stm (x : RegIndex)
  | ldm (x : RegIndex)
deriving DecidableEq, Repr

/-- The six formats (30_encoding R74). -/
inductive Format
  | z
  | a
  | xk
  | xy
  | xyn
  | x
deriving DecidableEq, Repr

/-- A row of the opcode table: a word `w` selects it when `w & mask == value` (30_encoding R76, where `value` is
the column `match`). -/
structure OpcodeRow where
  mnemonic : String
  format   : Format
  mask     : Word
  value    : Word
deriving DecidableEq, Repr

/-- The mnemonic of an instruction (30_encoding R76, R82; the names are the spec's own, D19). -/
def Instr.mnemonic : Instr → String
  | .nop => "NOP"
  | .cls => "CLS"
  | .ret => "RET"
  | .jp _ => "JP"
  | .call _ => "CALL"
  | .seb _ _ => "SEB"
  | .sneb _ _ => "SNEB"
  | .se _ _ => "SE"
  | .ldb _ _ => "LDB"
  | .addb _ _ => "ADDB"
  | .mov _ _ => "MOV"
  | .or _ _ => "OR"
  | .and _ _ => "AND"
  | .xor _ _ => "XOR"
  | .add _ _ => "ADD"
  | .sub _ _ => "SUB"
  | .shr _ => "SHR"
  | .subn _ _ => "SUBN"
  | .shl _ => "SHL"
  | .sne _ _ => "SNE"
  | .ldi _ => "LDI"
  | .jpv0 _ => "JPV0"
  | .rnd _ _ => "RND"
  | .drw _ _ _ => "DRW"
  | .skp _ => "SKP"
  | .sknp _ => "SKNP"
  | .lddt _ => "LDDT"
  | .wkey _ => "WKEY"
  | .stdt _ => "STDT"
  | .stst _ => "STST"
  | .addi _ => "ADDI"
  | .ldf _ => "LDF"
  | .bcd _ => "BCD"
  | .stm _ => "STM"
  | .ldm _ => "LDM"

end Sys2Proof
end

