-- ==== Sys2Proof/WellFormed.lean ====
section
/-! DEFINITION. Well-formed instruction words: the checks of 30_encoding R78, one per group of words it lists, written
from R78's own group table and independently of the decoder. An `Instr` needs no check of its own: each operand type has
exactly the range of its field (R73, R75), so an ill-formed `Instr` cannot be written; what can be ill-formed is a word. -/

namespace Sys2Proof

/-- Group `0nnn`: only `0000`, `00E0` and `00EE` are instructions. -/
def WellFormed.family0 (w : Nat) : Bool := w == 0x0000 || w == 0x00E0 || w == 0x00EE

/-- Groups `5xyN` and `9xyN`: the low nibble must be 0. -/
def WellFormed.lowNibbleZero (w : Nat) : Bool := w % 16 == 0

/-- Group `8xyN`: N is none of 8, 9, A, B, C, D, F. -/
def WellFormed.family8 (w : Nat) : Bool := decide (w % 16 ≤ 7) || w % 16 == 0xE

/-- Group `Exkk`: kk is 9E or A1. -/
def WellFormed.familyE (w : Nat) : Bool := w % 256 == 0x9E || w % 256 == 0xA1

/-- Group `Fxkk`: kk is one of the nine sub-operation bytes. -/
def WellFormed.familyF (w : Nat) : Bool :=
  [0x07, 0x0A, 0x15, 0x18, 0x1E, 0x29, 0x33, 0x55, 0x65].contains (w % 256)

/-- The word is an instruction: it is in none of the six groups of 30_encoding R78. -/
def WellFormed.word (w : Word) : Bool :=
  let family := w.toNat / 4096
  if family = 0 then WellFormed.family0 w.toNat
  else if family = 5 ∨ family = 9 then WellFormed.lowNibbleZero w.toNat
  else if family = 8 then WellFormed.family8 w.toNat
  else if family = 0xE then WellFormed.familyE w.toNat
  else if family = 0xF then WellFormed.familyF w.toNat
  else true

end Sys2Proof
end

