-- ==== Sys2Proof/Decode.lean ====
section
/-! DEFINITION. The decoder, total on all 65536 words (30_encoding R77); the encoder; and the opcode table as data
(30_encoding R76, R84: "a model should keep the table as configuration data"). The opcode numbers are the spec's, taken by
it from general knowledge (D3, G2, G3; log 3). -/

namespace Sys2Proof

/-! ### Fields of a word (30_encoding R73) -/

/-- `n3 = w[15:12]`, the family selector. -/
def Word.n3 (w : Word) : Fin 16 := (w.extractLsb' 12 4).toFin

/-- `X = w[11:8]`. -/
def Word.x (w : Word) : RegIndex := (w.extractLsb' 8 4).toFin

/-- `Y = w[7:4]`. -/
def Word.y (w : Word) : RegIndex := (w.extractLsb' 4 4).toFin

/-- `n0 = N = w[3:0]`: the sub-operation selector or the row count. -/
def Word.n0 (w : Word) : Fin 16 := (w.extractLsb' 0 4).toFin

/-- `kk = w[7:0]`. -/
def Word.kk (w : Word) : Byte := w.extractLsb' 0 8

/-- `nnn = w[11:0]`. -/
def Word.nnn (w : Word) : Addr12 := w.extractLsb' 0 12

/-- The big-endian combination of the two bytes of an instruction: the byte at the lower address is bits 15:8
(20_memory R56). -/
def Word.ofBytes (hi lo : Byte) : Word := hi ++ lo

/-- Bits 15:8, the byte at the lower address (20_memory R56, 30_encoding R81). -/
def Word.hiByte (w : Word) : Byte := w.extractLsb' 8 8

/-- Bits 7:0, the byte at the higher address (20_memory R56, 30_encoding R81). -/
def Word.loByte (w : Word) : Byte := w.extractLsb' 0 8

/-! ### Decoding -/

/-- What the decoder answers for a word (30_encoding R77): an instruction with its fields, or the verdict UnknownOpcode. -/
inductive Decoded
  | instr (i : Instr)
  | unknownOpcode (word : Word)
deriving DecidableEq, Repr

/-- Family 0: three whole words (30_encoding R77). -/
def decodeFamily0 (w : Word) : Decoded :=
  if w = 0x0000 then .instr .nop
  else if w = 0x00E0 then .instr .cls
  else if w = 0x00EE then .instr .ret
  else .unknownOpcode w

/-- Family 8: the sub-operation is the low nibble (30_encoding R77). -/
def decodeFamily8 (w : Word) : Decoded :=
  match w.n0.val with
  | 0x0 => .instr (.mov w.x w.y)
  | 0x1 => .instr (.or w.x w.y)
  | 0x2 => .instr (.and w.x w.y)
  | 0x3 => .instr (.xor w.x w.y)
  | 0x4 => .instr (.add w.x w.y)
  | 0x5 => .instr (.sub w.x w.y)
  | 0x6 => .instr (.shr w.x)
  | 0x7 => .instr (.subn w.x w.y)
  | 0xE => .instr (.shl w.x)
  | _   => .unknownOpcode w

/-- Family E: the sub-operation is the low byte (30_encoding R77). -/
def decodeFamilyE (w : Word) : Decoded :=
  match w.kk.toNat with
  | 0x9E => .instr (.skp w.x)
  | 0xA1 => .instr (.sknp w.x)
  | _    => .unknownOpcode w

/-- Family F: the sub-operation is the low byte (30_encoding R77). -/
def decodeFamilyF (w : Word) : Decoded :=
  match w.kk.toNat with
  | 0x07 => .instr (.lddt w.x)
  | 0x0A => .instr (.wkey w.x)
  | 0x15 => .instr (.stdt w.x)
  | 0x18 => .instr (.stst w.x)
  | 0x1E => .instr (.addi w.x)
  | 0x29 => .instr (.ldf w.x)
  | 0x33 => .instr (.bcd w.x)
  | 0x55 => .instr (.stm w.x)
  | 0x65 => .instr (.ldm w.x)
  | _    => .unknownOpcode w

/-- The decode function, by the top nibble (30_encoding R77). It reads no state but the word. The
sixteen values of the nibble all stand here; the last arm is never taken. -/
def decode (w : Word) : Decoded :=
  match w.n3.val with
  | 0x0 => decodeFamily0 w
  | 0x1 => .instr (.jp w.nnn)
  | 0x2 => .instr (.call w.nnn)
  | 0x3 => .instr (.seb w.x w.kk)
  | 0x4 => .instr (.sneb w.x w.kk)
  | 0x5 => if w.n0 = 0 then .instr (.se w.x w.y) else .unknownOpcode w
  | 0x6 => .instr (.ldb w.x w.kk)
  | 0x7 => .instr (.addb w.x w.kk)
  | 0x8 => decodeFamily8 w
  | 0x9 => if w.n0 = 0 then .instr (.sne w.x w.y) else .unknownOpcode w
  | 0xA => .instr (.ldi w.nnn)
  | 0xB => .instr (.jpv0 w.nnn)
  | 0xC => .instr (.rnd w.x w.kk)
  | 0xD => .instr (.drw w.x w.y w.n0)
  | 0xE => decodeFamilyE w
  | 0xF => decodeFamilyF w
  | _   => .unknownOpcode w

/-- Decoding from bytes: the first two bytes, big-endian, and the bytes that follow them; fewer than two bytes hold no
instruction word (20_memory R56, 30_encoding R80). -/
def decodeBytes : List Byte → Option (Decoded × List Byte)
  | hi :: lo :: rest => some (decode (Word.ofBytes hi lo), rest)
  | _ => none

/-! ### Encoding, by format (30_encoding R74, R76) -/

/-- Format A: `n3 ++ nnn`. -/
def encodeA (n3 : BitVec 4) (nnn : Addr12) : Word := n3 ++ nnn

/-- Formats XK and X: `n3 ++ X ++ kk`. -/
def encodeXK (n3 : BitVec 4) (x : RegIndex) (kk : Byte) : Word := n3 ++ BitVec.ofNat 4 x.val ++ kk

/-- Formats XY and XYN: `n3 ++ X ++ Y ++ n0`. -/
def encodeXYN (n3 : BitVec 4) (x y : RegIndex) (n : Fin 16) : Word :=
  n3 ++ BitVec.ofNat 4 x.val ++ BitVec.ofNat 4 y.val ++ BitVec.ofNat 4 n.val

/-- The word of an instruction (30_encoding R76). SHR and SHL assemble with Y = 0 (30_encoding R81). -/
def encode : Instr → Word
  | .nop => 0x0000
  | .cls => 0x00E0
  | .ret => 0x00EE
  | .jp nnn => encodeA 0x1 nnn
  | .call nnn => encodeA 0x2 nnn
  | .seb x kk => encodeXK 0x3 x kk
  | .sneb x kk => encodeXK 0x4 x kk
  | .se x y => encodeXYN 0x5 x y 0x0
  | .ldb x kk => encodeXK 0x6 x kk
  | .addb x kk => encodeXK 0x7 x kk
  | .mov x y => encodeXYN 0x8 x y 0x0
  | .or x y => encodeXYN 0x8 x y 0x1
  | .and x y => encodeXYN 0x8 x y 0x2
  | .xor x y => encodeXYN 0x8 x y 0x3
  | .add x y => encodeXYN 0x8 x y 0x4
  | .sub x y => encodeXYN 0x8 x y 0x5
  | .shr x => encodeXYN 0x8 x 0 0x6
  | .subn x y => encodeXYN 0x8 x y 0x7
  | .shl x => encodeXYN 0x8 x 0 0xE
  | .sne x y => encodeXYN 0x9 x y 0x0
  | .ldi nnn => encodeA 0xA nnn
  | .jpv0 nnn => encodeA 0xB nnn
  | .rnd x kk => encodeXK 0xC x kk
  | .drw x y n => encodeXYN 0xD x y n
  | .skp x => encodeXK 0xE x 0x9E
  | .sknp x => encodeXK 0xE x 0xA1
  | .lddt x => encodeXK 0xF x 0x07
  | .wkey x => encodeXK 0xF x 0x0A
  | .stdt x => encodeXK 0xF x 0x15
  | .stst x => encodeXK 0xF x 0x18
  | .addi x => encodeXK 0xF x 0x1E
  | .ldf x => encodeXK 0xF x 0x29
  | .bcd x => encodeXK 0xF x 0x33
  | .stm x => encodeXK 0xF x 0x55
  | .ldm x => encodeXK 0xF x 0x65

/-- The two bytes of an instruction in memory order: high byte first (20_memory R56, 30_encoding R81). -/
def encodeBytes (i : Instr) : List Byte := [(encode i).hiByte, (encode i).loByte]

/-- The host's probe: the instruction the decoder reads from a table word of `nbits` bits, the bits above `nbits` zero.
Every instruction is one 16-bit word (30_encoding R80), laid out as two bytes, high byte first. -/
def decodeTableWord (nbits w : Nat) : Option Instr :=
  let word : Word := BitVec.ofNat 16 (w % 2 ^ nbits)
  match decodeBytes [word.hiByte, word.loByte] with
  | some (.instr i, _) => some i
  | _ => none

/-! ### The opcode table as data (30_encoding R76) -/

/-- The rows of families 0 to 7 (30_encoding R76). -/
def opcodeRows0to7 : List OpcodeRow :=
  [⟨"NOP", .z, 0xFFFF, 0x0000⟩, ⟨"CLS", .z, 0xFFFF, 0x00E0⟩, ⟨"RET", .z, 0xFFFF, 0x00EE⟩,
   ⟨"JP", .a, 0xF000, 0x1000⟩, ⟨"CALL", .a, 0xF000, 0x2000⟩, ⟨"SEB", .xk, 0xF000, 0x3000⟩,
   ⟨"SNEB", .xk, 0xF000, 0x4000⟩, ⟨"SE", .xy, 0xF00F, 0x5000⟩, ⟨"LDB", .xk, 0xF000, 0x6000⟩,
   ⟨"ADDB", .xk, 0xF000, 0x7000⟩]

/-- The rows of families 8 and 9 (30_encoding R76). -/
def opcodeRows8to9 : List OpcodeRow :=
  [⟨"MOV", .xy, 0xF00F, 0x8000⟩, ⟨"OR", .xy, 0xF00F, 0x8001⟩, ⟨"AND", .xy, 0xF00F, 0x8002⟩,
   ⟨"XOR", .xy, 0xF00F, 0x8003⟩, ⟨"ADD", .xy, 0xF00F, 0x8004⟩, ⟨"SUB", .xy, 0xF00F, 0x8005⟩,
   ⟨"SHR", .xy, 0xF00F, 0x8006⟩, ⟨"SUBN", .xy, 0xF00F, 0x8007⟩, ⟨"SHL", .xy, 0xF00F, 0x800E⟩,
   ⟨"SNE", .xy, 0xF00F, 0x9000⟩]

/-- The rows of families A to F (30_encoding R76). -/
def opcodeRowsAtoF : List OpcodeRow :=
  [⟨"LDI", .a, 0xF000, 0xA000⟩, ⟨"JPV0", .a, 0xF000, 0xB000⟩, ⟨"RND", .xk, 0xF000, 0xC000⟩,
   ⟨"DRW", .xyn, 0xF000, 0xD000⟩, ⟨"SKP", .x, 0xF0FF, 0xE09E⟩, ⟨"SKNP", .x, 0xF0FF, 0xE0A1⟩,
   ⟨"LDDT", .x, 0xF0FF, 0xF007⟩, ⟨"WKEY", .x, 0xF0FF, 0xF00A⟩, ⟨"STDT", .x, 0xF0FF, 0xF015⟩,
   ⟨"STST", .x, 0xF0FF, 0xF018⟩, ⟨"ADDI", .x, 0xF0FF, 0xF01E⟩, ⟨"LDF", .x, 0xF0FF, 0xF029⟩,
   ⟨"BCD", .x, 0xF0FF, 0xF033⟩, ⟨"STM", .x, 0xF0FF, 0xF055⟩, ⟨"LDM", .x, 0xF0FF, 0xF065⟩]

/-- The opcode table, 35 rows in the order of 30_encoding R76. -/
def opcodeTable : List OpcodeRow := opcodeRows0to7 ++ (opcodeRows8to9 ++ opcodeRowsAtoF)

/-- A word selects a row when `w & mask == match` (30_encoding R76). -/
def OpcodeRow.selects (row : OpcodeRow) (w : Word) : Bool := w &&& row.mask == row.value

end Sys2Proof
end

