-- ==== Sys2Proof/Machine/Flags.lean ====
section
/-! DEFINITION. Every flag computation of the machine (10_state R22): the carry of ADD, the no-borrow of SUB and SUBN, the
bit shifted out by SHR and SHL, and the byte a flag is written as. DRW's collision flag comes out of the drawing loop
(Machine/Display.lean). -/

namespace Sys2Proof.Machine

/-- The flag register receives "the 8-bit value 0 or 1 ..., never a single bit" (10_state R22). -/
def flagByte (b : Bool) : Byte := if b then 1 else 0

/-- ADD: "1 if the 8-bit sum overflows" (41_arithmetic R127). -/
def carryOut (a b : Byte) : Bool := decide (a.toNat + b.toNat > 255)

/-- SUB, SUBN: 1 if no borrow, that is minuend at least subtrahend (41_arithmetic R128, R130). -/
def noBorrow (minuend subtrahend : Byte) : Bool := decide (minuend.toNat ≥ subtrahend.toNat)

/-- SHR: "the pre-shift least-significant bit" (41_arithmetic R129). -/
def shiftedOutRight (a : Byte) : Bool := a.getLsbD 0

/-- SHL: "the pre-shift most-significant bit" (41_arithmetic R131). -/
def shiftedOutLeft (a : Byte) : Bool := a.getLsbD 7

end Sys2Proof.Machine
end

