-- ==== Sys2Proof/Config.lean ====
section
/-! DEFINITION. What is fixed for the machine: the sizes the document gives (00_scope R4), the legal values of the one
behavioural parameter (FONT_WRITE_POLICY), and the one free value of the spec, the random byte (43_random R160).
The values the document leaves open and the spec supplies (PC_RESET, FONT, the policy's default) stand in
Sys2Proof/Machine/Params.lean. -/

namespace Sys2Proof

/-- MEM_SIZE, bytes of memory (00_scope R4, 20_memory R50). -/
abbrev Config.memSize : Nat := 4096

/-- FONT_LEN: the font occupies 0x000 to 0x04F (00_scope R4, 20_memory R51, R52). -/
abbrev Config.fontLen : Nat := 80

/-- LOAD_BASE, where LOAD puts the program (00_scope R4, 70_reset R253). -/
abbrev Config.loadBase : Nat := 0x200

/-- MAX_PROGRAM = 4096 - 0x200 = 3584 bytes (00_scope R4, 70_reset R253). -/
abbrev Config.maxProgram : Nat := 3584

/-- STACK_DEPTH (00_scope R4, 10_state R25). -/
abbrev Config.stackDepth : Nat := 16

/-- FB_W, columns of the framebuffer (00_scope R4, 10_state R26). -/
abbrev Config.fbWidth : Nat := 64

/-- FB_H, rows of the framebuffer (00_scope R4, 10_state R26). -/
abbrev Config.fbHeight : Nat := 32

/-- NKEYS (00_scope R4, 10_state R27). -/
abbrev Config.numKeys : Nat := 16

/-- The index of the flag register VF, "The 16th register" (00_scope R4, 10_state R22). -/
abbrev Config.flagReg : RegIndex := 15

/-- The legal values of FONT_WRITE_POLICY: what a store into 0x000 to 0x04F does (00_scope R4, 20_memory R54). -/
inductive FontWritePolicy
  /-- The store raises OutOfBoundsAccess, kind `rom_write`. -/
  | fault
  /-- The store changes nothing and succeeds. -/
  | ignore
  /-- The store is performed like any other. -/
  | store
deriving DecidableEq, Repr

/-- FREE VALUE: the random byte of the `k`-th draw (43_random R160, spec/93 U7; log 1).
Nothing constrains it; no proof can see a value of it. -/
opaque Config.rnd : Nat → Byte

end Sys2Proof
end

