-- ==== Sys2Proof/Machine/Params.lean ====
section
/-! DEFINITION. The parameters the document leaves open, each at the value the spec gives it (00_scope R4): PC_RESET,
FONT and FONT_WRITE_POLICY. They stand in this file so that a claim can say which of them it rests on (20_memory R52). -/

namespace Sys2Proof.Params

/-- PC_RESET (00_scope R4, 10_state R34, 70_reset R250; the spec's decision D2; log 2). -/
def pcReset : Word := 0x200

/-- Glyphs 0 to 7, five bytes each, top row first (20_memory R52; D12, G4: general knowledge; log 12). -/
def font0to7 : List Byte :=
  [0xF0, 0x90, 0x90, 0x90, 0xF0,
   0x20, 0x60, 0x20, 0x20, 0x70,
   0xF0, 0x10, 0xF0, 0x80, 0xF0,
   0xF0, 0x10, 0xF0, 0x10, 0xF0,
   0x90, 0x90, 0xF0, 0x10, 0x10,
   0xF0, 0x80, 0xF0, 0x10, 0xF0,
   0xF0, 0x80, 0xF0, 0x90, 0xF0,
   0xF0, 0x10, 0x20, 0x40, 0x40]

/-- Glyphs 8 to F (20_memory R52; D12, G4; log 12). -/
def font8toF : List Byte :=
  [0xF0, 0x90, 0xF0, 0x90, 0xF0,
   0xF0, 0x90, 0xF0, 0x10, 0xF0,
   0xF0, 0x90, 0xF0, 0x90, 0x90,
   0xE0, 0x90, 0xE0, 0x90, 0xE0,
   0xF0, 0x80, 0x80, 0x80, 0xF0,
   0xE0, 0x90, 0x90, 0x90, 0xE0,
   0xF0, 0x80, 0xF0, 0x80, 0xF0,
   0xF0, 0x80, 0xF0, 0x80, 0x80]

/-- FONT: the 80 font bytes at 0x000 to 0x04F (20_memory R52; log 12). -/
def font : List Byte := font0to7 ++ font8toF

/-- FONT_WRITE_POLICY at its default (00_scope R4, 20_memory R54; the spec's decision D11; log 11). -/
def fontWritePolicy : FontWritePolicy := .fault

end Sys2Proof.Params
end

