-- ==== Sys2Proof/Machine/Memory.lean ====
section
/-! DEFINITION. Memory: 4096 bytes in one address space (20_memory R50), held as a canonical list of the bytes that differ
from the reset contents (log 23): addresses strictly rising, all below 4096, no entry equal to what an unlisted address
reads as. -/

namespace Sys2Proof.Machine

/-- The bytes that differ from the reset contents. -/
abbrev Memory := List Host.Cell

/-- What an unlisted address reads as: the reset contents, FONT at 0x000 to 0x04F and zero elsewhere
(10_state R30, R34; 20_memory R51, R52). -/
def resetByte (a : Nat) : Byte := Params.font.getD a 0

/-- The byte at address `a` (20_memory R53, `n = 1`, for an `a` that names a byte; the callers check that first). -/
def Memory.read : Memory → Nat → Byte
  | [], a => resetByte a
  | (b, v) :: rest, a => if b = a then v else Memory.read rest a

/-- One byte in front of a list of higher addresses, kept canonical. -/
def Memory.put (a : Nat) (v : Byte) (rest : Memory) : Memory :=
  if v = resetByte a then rest else (a, v) :: rest

/-- The canonical insertion of one byte. -/
def Memory.insert (a : Nat) (v : Byte) : Memory → Memory
  | [] => Memory.put a v []
  | (b, w) :: rest =>
    if b < a then (b, w) :: Memory.insert a v rest
    else if b = a then Memory.put a v rest
    else Memory.put a v ((b, w) :: rest)

/-- `mem[a] <- v` (20_memory R54, last sentence). An `a` of 4096 or more names no byte, so there is nothing to write;
every caller raises before it gets here (log 23). -/
def Memory.write (m : Memory) (a : Nat) (v : Byte) : Memory :=
  if a < Config.memSize then Memory.insert a v m else m

/-- Bytes written to consecutive addresses, ascending (70_reset R253). -/
def Memory.writeBytes (m : Memory) (a : Nat) : List Byte → Memory
  | [] => m
  | v :: vs => Memory.writeBytes (m.write a v) (a + 1) vs

/-- `n` bytes read from consecutive addresses, ascending. -/
def Memory.readBytes (m : Memory) (a : Nat) : Nat → List Byte
  | 0 => []
  | n + 1 => m.read a :: Memory.readBytes m (a + 1) n

/-- The canonical form, from the lowest address `lo` an entry may have. -/
def Memory.wfFrom (lo : Nat) : Memory → Bool
  | [] => true
  | (a, v) :: rest =>
    decide (lo ≤ a) && decide (a < Config.memSize) && decide (v ≠ resetByte a) && Memory.wfFrom (a + 1) rest

/-- The canonical form of a memory (log 23). -/
def Memory.wf (m : Memory) : Bool := Memory.wfFrom 0 m

end Sys2Proof.Machine
end

