-- ==== Sys2Proof/Machine/State.lean ====
section
/-! DEFINITION. The state of the machine, the error records and the state after reset (10_state). -/

namespace Sys2Proof.Machine

/-- The framebuffer: 32 rows, top to bottom, of 64 pixels, left to right (10_state R26, row-major; log 15). -/
abbrev Framebuffer := Vector (Vector Bool 64) 32

/-- The complete state: the ten items of 10_state R20, and the model's own draw counter. -/
structure State where
  /-- `mem`, 4096 bytes (10_state R30). -/
  mem   : Memory
  /-- `x[0..15]`, the general registers; `x[15]` is the flag register VF (10_state R21, R22). -/
  x     : Vector Byte 16
  /-- `I`, the index register (10_state R23). -/
  idx   : Word
  /-- `PC`, the program counter (10_state R24). -/
  pc    : Word
  /-- `stack[0..15]`, the return addresses (10_state R25; width D26; log 21). -/
  stack : Vector Word 16
  /-- `SP`, the number of valid stack entries, 0 to 16 (10_state R25, R31). -/
  sp    : Fin 17
  /-- `fb`, the framebuffer (10_state R26). -/
  fb    : Framebuffer
  /-- `key[0..15]`, true while pressed (10_state R27). -/
  key   : Vector Bool 16
  /-- `DT`, the delay timer (10_state R28). -/
  dt    : Byte
  /-- `ST`, the sound timer (10_state R29). -/
  st    : Byte
  /-- The model's own: how many free random bytes have been drawn (43_random R160; log 1). -/
  draws : Nat
deriving DecidableEq, Repr

/-- The state after RESET (10_state R34, 70_reset R250): nothing listed in memory, so the font and zeros; every register,
stack entry, pixel, key and timer zero; `PC` the one item not zeroed. -/
def State.reset : State where
  mem   := []
  x     := Vector.replicate 16 0
  idx   := 0
  pc    := Params.pcReset
  stack := Vector.replicate 16 0
  sp    := 0
  fb    := Vector.replicate 32 (Vector.replicate 64 false)
  key   := Vector.replicate 16 false
  dt    := 0
  st    := 0
  draws := 0

/-- The `kind` of an OutOfBoundsAccess (60_exceptions R212). -/
inductive AccessKind
  /-- The fetch of an instruction (30_encoding R71). -/
  | fetch
  /-- A data read: DRW, LDM. -/
  | read
  /-- A data write past the end of memory: STM, BCD. -/
  | write
  /-- A data write into the font under the policy `fault` (20_memory R54). -/
  | romWrite
  /-- A key index of 16 or more: SKP, SKNP (45_input R181, R182). -/
  | key
deriving DecidableEq, Repr

/-- The errors, one constructor per row of 60_exceptions R211, carrying the record of R212. Each is the spec's own error
result: the operation ends and the whole state is as before it (R213). All are SAFE: where the original repository went on
with undefined behaviour, the machine of the spec stops. -/
inductive Fault
  /-- Code 1. Raised by STEP's decode phase (R210). Safe. -/
  | unknownOpcode (pc0 word : Word)
  /-- Code 2. Raised by STEP's fetch (`word` absent), DRW, LDM, STM, BCD, SKP, SKNP (R211, R216). Safe. -/
  | outOfBoundsAccess (pc0 : Word) (word : Option Word) (kind : AccessKind) (addr : Word)
  /-- Code 3. Raised by CALL with `SP = 16` (40_control_transfer R102). Safe. -/
  | stackOverflow (pc0 word : Word)
  /-- Code 4. Raised by RET with `SP = 0` (40_control_transfer R103). Safe. -/
  | stackUnderflow (pc0 word : Word)
  /-- Code 5. Raised by LOAD of more than 3584 bytes (70_reset R253, R254). Safe. -/
  | programTooLarge (len : Nat)
deriving DecidableEq, Repr

/-- Why an instruction has no meaning in this model. -/
inductive Refusal
  /-- Raised by an arm of `exec` whose instruction has no meaning yet; no arm of this model does. Safe. -/
  | notModelled (mnemonic : String)
deriving DecidableEq, Repr

end Sys2Proof.Machine
end

