-- ==== Sys2Proof/Machine/Ops.lean ====
section
/-! DEFINITION. The shared operations over registers, stack and memory; the access checks; and raising an error, the one
thing that stands where other machines take an exception (60_exceptions R213, R214): nothing is saved, no state changes,
control goes nowhere, and there is no return from it (R215). -/

namespace Sys2Proof.Machine

/-- What an instruction answers. -/
abbrev Result := Host.Outcome State Fault Refusal

/-! ### Registers (10_state R21 to R25) -/

/-- `x[r]` (00_scope R6). -/
def State.reg (s : State) (r : RegIndex) : Byte := s.x[r.val]

/-- `x[r] <- v` (00_scope R6). -/
def State.setReg (s : State) (r : RegIndex) (v : Byte) : State := { s with x := s.x.set r.val v }

/-- `x[15] <- 1 or 0`, the flag (10_state R22). -/
def State.setFlag (s : State) (b : Bool) : State := s.setReg Config.flagReg (flagByte b)

/-- The whole register file written at once. -/
def State.setRegs (s : State) (x : Vector Byte 16) : State := { s with x := x }

/-- `I <- v`. -/
def State.setIdx (s : State) (v : Word) : State := { s with idx := v }

/-- `PC <- v`. No value is checked when it is written (40_control_transfer R100). -/
def State.setPc (s : State) (v : Word) : State := { s with pc := v }

/-- The fetch phase advances `PC` by 2 before execution (30_encoding R72). -/
def State.advance (s : State) : State := s.setPc (s.pc + 2)

/-- A skip adds 2 to the advanced `PC` when the condition holds (40_control_transfer R100). -/
def State.skipIf (s : State) (c : Bool) : State := if c then s.setPc (s.pc + 2) else s

/-- The memory replaced. -/
def State.setMem (s : State) (m : Memory) : State := { s with mem := m }

/-- The framebuffer replaced. -/
def State.setFb (s : State) (fb : Framebuffer) : State := { s with fb := fb }

/-- `DT <- v`. -/
def State.setDt (s : State) (v : Byte) : State := { s with dt := v }

/-- `ST <- v`. -/
def State.setSt (s : State) (v : Byte) : State := { s with st := v }

/-- `key[k] <- pressed`; only SETKEY does this (60_exceptions R225). -/
def State.setKeyFlag (s : State) (k : Fin 16) (pressed : Bool) : State := { s with key := s.key.set k.val pressed }

/-- One more free random byte has been drawn (log 1). -/
def State.countDraw (s : State) : State := { s with draws := s.draws + 1 }

/-! ### The call stack (10_state R25) -/

/-- `stack[SP] <- v; SP <- SP + 1`, or nothing when the 16 entries are taken (40_control_transfer R102). -/
def State.push? (s : State) (v : Word) : Option State :=
  if h : s.sp.val < 16 then some { s with stack := s.stack.set s.sp.val v, sp := ⟨s.sp.val + 1, by omega⟩ } else none

/-- `SP <- SP - 1` with the entry then at `stack[SP]`, or nothing when the stack is empty (40_control_transfer R103).
The entry keeps its content (D27; log 21). -/
def State.pop? (s : State) : Option (Word × State) :=
  if h : 0 < s.sp.val then some (s.stack[s.sp.val - 1], { s with sp := ⟨s.sp.val - 1, by omega⟩ }) else none

/-! ### Raising an error (60_exceptions R211 to R214) -/

/-- The operation ends with the error; the caller gets the record and no state (00_scope R6 `raise`, 60_exceptions R213). -/
def raise (f : Fault) : Result := .fault f

/-- `pc0`, the address of the instruction, from the advanced `PC` an instruction sees (00_scope R6; log 24). -/
def State.pc0 (s : State) : Word := s.pc - 2

/-- OutOfBoundsAccess of an instruction: its record carries `pc0`, the word, the kind and the address
(60_exceptions R211, R212; log 9). -/
def raiseOutOfBounds (i : Instr) (s : State) (k : AccessKind) (addr : Nat) : Result :=
  raise (.outOfBoundsAccess s.pc0 (some (encode i)) k (BitVec.ofNat 16 addr))

/-! ### Access checks (20_memory R53, R54, R65) -/

/-- A read fails when the address is 4096 or more (20_memory R53). `k` is `fetch` or `read`. -/
def readCheck (k : AccessKind) (a : Nat) : Option AccessKind := if Config.memSize ≤ a then some k else none

/-- A write fails when the address is 4096 or more, and, under the policy `fault`, when it lies in the font
(20_memory R54). -/
def writeCheck (p : FontWritePolicy) (a : Nat) : Option AccessKind :=
  if Config.memSize ≤ a then some .write
  else if a < Config.fontLen ∧ p = .fault then some .romWrite
  else none

/-- The first of the `n` addresses from `a` up that fails its check, in ascending order (20_memory R65). -/
def firstFailing (check : Nat → Option AccessKind) (a : Nat) : Nat → Option (AccessKind × Nat)
  | 0 => none
  | n + 1 =>
    match check a with
    | some k => some (k, a)
    | none => firstFailing check (a + 1) n

/-- `MemWrite(a, 1, v)` once its check has passed (20_memory R54): under the policy `ignore` a write to the font changes
nothing. -/
def storeByte (p : FontWritePolicy) (m : Memory) (a : Nat) (v : Byte) : Memory :=
  if a < Config.fontLen ∧ p = .ignore then m else m.write a v

/-- Single-byte stores to consecutive addresses, ascending (20_memory R56, R58). -/
def storeBytes (p : FontWritePolicy) (m : Memory) (a : Nat) : List Byte → Memory
  | [] => m
  | v :: vs => storeBytes p (storeByte p m a v) (a + 1) vs

/-- The stores of an instruction through `I`: every address is checked before any byte is written
(20_memory R55, R65; 42_memory_index R140). `I` is unchanged (D14; log 14). -/
def storeThroughIndex (p : FontWritePolicy) (i : Instr) (vals : List Byte) (s : State) : Result :=
  match firstFailing (writeCheck p) s.idx.toNat vals.length with
  | some (k, a) => raiseOutOfBounds i s k a
  | none => .next (s.setMem (storeBytes p s.mem s.idx.toNat vals))

/-- The reads of an instruction through `I`: every address is checked first, then `use` gets the bytes
(20_memory R53, R55, R65). `I` is unchanged (D14; log 14). -/
def loadThroughIndex (i : Instr) (n : Nat) (s : State) (use : List Byte → State) : Result :=
  match firstFailing (readCheck .read) s.idx.toNat n with
  | some (k, a) => raiseOutOfBounds i s k a
  | none => .next (use (s.mem.readBytes s.idx.toNat n))

end Sys2Proof.Machine
end

