-- ==== Sys2Proof/Machine/Operands.lean ====
section
/-! DEFINITION. The operand forms (30_encoding R75): the register lists of STM and LDM, and the key a register selects.
The other forms are used as they stand: a register by `State.reg`, `kk` as a byte, `nnn` by `Addr12.toWord`, and the
effective address `I + k` as a natural number in Machine/Ops.lean. -/

namespace Sys2Proof.Machine

/-- The values of `x[0]` to `x[X]`, inclusive, in that order: what STM stores (42_memory_index R144). -/
def State.regsUpTo (s : State) (x : RegIndex) : List Byte := s.x.toList.take (x.val + 1)

/-- `x[k], x[k+1], ...` receive the bytes in order: what LDM writes, ascending (42_memory_index R145). -/
def loadRegs (regs : Vector Byte 16) (k : Nat) : List Byte → Vector Byte 16
  | [] => regs
  | v :: vs => if h : k < 16 then loadRegs (regs.set k v) (k + 1) vs else regs

/-- The key whose index is the full 8-bit value of `x[X]`, if it is one of the sixteen (45_input R181; D28; log 27). -/
def State.selectedKey (s : State) (x : RegIndex) : Option (Fin 16) :=
  if h : (s.reg x).toNat < 16 then some ⟨(s.reg x).toNat, h⟩ else none

/-- The least pressed key, scanning from index 0 (45_input R183). -/
def State.lowestPressed (s : State) : Option (Fin 16) := (List.finRange 16).find? fun k => s.key[k.val]

end Sys2Proof.Machine
end

