-- ==== Sys2Proof/Machine/Arithmetic.lean ====
section
/-! DEFINITION. Register and immediate arithmetic: LDB, ADDB, MOV, OR, AND, XOR, ADD, SUB, SHR, SUBN, SHL
(41_arithmetic). Operands are read first, from the state before; the result goes to `x[X]`, then the flag to `x[15]`
(R120, D6; log 6). -/

namespace Sys2Proof.Machine

/-- The five flag-defining instructions write the result first and the flag second (R120). -/
def writeResultAndFlag (x : RegIndex) (v : Byte) (flag : Bool) (s : State) : Result :=
  .next ((s.setReg x v).setFlag flag)

/-- LDB Vx, kk (R121). -/
def execLdb (x : RegIndex) (kk : Byte) (s : State) : Result := .next (s.setReg x kk)

/-- ADDB Vx, kk (R122): modulo 256, no flag effect. -/
def execAddb (x : RegIndex) (kk : Byte) (s : State) : Result := .next (s.setReg x (s.reg x + kk))

/-- MOV Vx, Vy (R123). -/
def execMov (x y : RegIndex) (s : State) : Result := .next (s.setReg x (s.reg y))

/-- OR Vx, Vy (R124): the flag register is not written. -/
def execOr (x y : RegIndex) (s : State) : Result := .next (s.setReg x (s.reg x ||| s.reg y))

/-- AND Vx, Vy (R125): the flag register is not written. -/
def execAnd (x y : RegIndex) (s : State) : Result := .next (s.setReg x (s.reg x &&& s.reg y))

/-- XOR Vx, Vy (R126): the flag register is not written. -/
def execXor (x y : RegIndex) (s : State) : Result := .next (s.setReg x (s.reg x ^^^ s.reg y))

/-- ADD Vx, Vy (R127). -/
def execAdd (x y : RegIndex) (s : State) : Result :=
  writeResultAndFlag x (s.reg x + s.reg y) (carryOut (s.reg x) (s.reg y)) s

/-- SUB Vx, Vy (R128): minuend `x[X]`, subtrahend `x[Y]`. -/
def execSub (x y : RegIndex) (s : State) : Result :=
  writeResultAndFlag x (s.reg x - s.reg y) (noBorrow (s.reg x) (s.reg y)) s

/-- SHR Vx (R129): in place, Y ignored (D5; log 5). -/
def execShr (x : RegIndex) (s : State) : Result :=
  writeResultAndFlag x (s.reg x >>> 1) (shiftedOutRight (s.reg x)) s

/-- SUBN Vx, Vy (R130): minuend `x[Y]`, subtrahend `x[X]`. -/
def execSubn (x y : RegIndex) (s : State) : Result :=
  writeResultAndFlag x (s.reg y - s.reg x) (noBorrow (s.reg y) (s.reg x)) s

/-- SHL Vx (R131): in place, Y ignored (D5; log 5). -/
def execShl (x : RegIndex) (s : State) : Result :=
  writeResultAndFlag x (s.reg x <<< 1) (shiftedOutLeft (s.reg x)) s

end Sys2Proof.Machine
end

