-- ==== Sys2Proof/Machine/Control.lean ====
section
/-! DEFINITION. Control transfer: JP, CALL, RET, JPV0, SEB, SNEB, SE, SNE (40_control_transfer). The state an instruction
gets has `PC` already advanced by 2 (30_encoding R72; log 24). -/

namespace Sys2Proof.Machine

/-- JP nnn (R101). -/
def execJp (nnn : Addr12) (s : State) : Result := .next (s.setPc nnn.toWord)

/-- CALL nnn (R102): the advanced `PC` is pushed; StackOverflow when `SP = 16`. -/
def execCall (nnn : Addr12) (s : State) : Result :=
  match s.push? s.pc with
  | some s' => .next (s'.setPc nnn.toWord)
  | none => raise (.stackOverflow s.pc0 (encode (.call nnn)))

/-- RET (R103): StackUnderflow when `SP = 0`. -/
def execRet (s : State) : Result :=
  match s.pop? with
  | some (target, s') => .next (s'.setPc target)
  | none => raise (.stackUnderflow s.pc0 (encode .ret))

/-- JPV0 nnn (R104): the sum is not reduced to 12 bits (D25; log 20). -/
def execJpv0 (nnn : Addr12) (s : State) : Result := .next (s.setPc (nnn.toWord + (s.reg 0).toWord))

/-- SEB Vx, kk (R105). -/
def execSeb (x : RegIndex) (kk : Byte) (s : State) : Result := .next (s.skipIf (s.reg x == kk))

/-- SNEB Vx, kk (R106). -/
def execSneb (x : RegIndex) (kk : Byte) (s : State) : Result := .next (s.skipIf (s.reg x != kk))

/-- SE Vx, Vy (R107). -/
def execSe (x y : RegIndex) (s : State) : Result := .next (s.skipIf (s.reg x == s.reg y))

/-- SNE Vx, Vy (R108). -/
def execSne (x y : RegIndex) (s : State) : Result := .next (s.skipIf (s.reg x != s.reg y))

end Sys2Proof.Machine
end

