-- ==== Sys2Proof/Machine/Display.lean ====
section
/-! DEFINITION. The sprite renderer: DRW (44_display). Columns count from the left, rows from the top, bit 7 of a sprite
byte is the leftmost pixel (R165, D15, G5; log 15). -/

namespace Sys2Proof.Machine

/-- `fb[col, row]` (10_state R26). -/
def Framebuffer.pixel (fb : Framebuffer) (col : Fin 64) (row : Fin 32) : Bool := fb[row.val][col.val]

/-- `fb[col, row] <- on` (10_state R26). -/
def Framebuffer.setPixel (fb : Framebuffer) (col : Fin 64) (row : Fin 32) (on : Bool) : Framebuffer :=
  fb.set row.val (fb[row.val].set col.val on)

/-- The framebuffer with every pixel off (47_noop_clear R202). -/
def Framebuffer.clear : Framebuffer := Vector.replicate 32 (Vector.replicate 64 false)

/-- The screen column of a horizontal position, "used modulo screen width" (R167). -/
def screenCol (n : Nat) : Fin 64 := ⟨n % 64, by omega⟩

/-- The screen row of a vertical position, "used modulo screen ... height" (R167). -/
def screenRow (n : Nat) : Fin 32 := ⟨n % 32, by omega⟩

/-- Sprite column `c`, 0 to 7 from the left, is bit `7 - c` of the byte (R165). -/
def spriteBit (b : Byte) (c : Nat) : Bool := b.getLsbD (7 - c)

/-- What the drawing loop carries: the framebuffer and `collided` (R166). -/
abbrev Drawing := Framebuffer × Bool

/-- One set sprite bit: a collision when the pixel is on, then the pixel is inverted (R166). -/
def xorPixel (col : Fin 64) (row : Fin 32) (d : Drawing) : Drawing :=
  (d.1.setPixel col row (!d.1.pixel col row), d.2 || d.1.pixel col row)

/-- The pixels of one sprite row from sprite column `8 - n` on, left to right; each column wraps by itself (R166, R167). -/
def drawRowFrom (b : Byte) (vx : Nat) (row : Fin 32) : Nat → Drawing → Drawing
  | 0, d => d
  | n + 1, d =>
    drawRowFrom b vx row n (if spriteBit b (7 - n) then xorPixel (screenCol (vx + (7 - n))) row d else d)

/-- The rows of a sprite, top to bottom, the first at vertical position `vy` (R166). -/
def drawRows (vx vy : Nat) : List Byte → Drawing → Drawing
  | [], d => d
  | b :: bs, d => drawRows vx (vy + 1) bs (drawRowFrom b vx (screenRow vy) 8 d)

/-- DRW Vx, Vy, n (R166): coordinates are read before `x[15]` is written; with `n = 0` no memory is read (R168). -/
def execDrw (x y : RegIndex) (n : RowCount) (s : State) : Result :=
  loadThroughIndex (.drw x y n) n.val s fun bytes =>
    let d := drawRows (s.reg x).toNat (s.reg y).toNat bytes (s.fb, false)
    (s.setFb d.1).setFlag d.2

end Sys2Proof.Machine
end

