-- ==== Sys2Proof/Machine/Input.lean ====
section
/-! DEFINITION. The keypad instructions: SKP, SKNP, WKEY (45_input). They read the key flags as they stand at the STEP
(R180). -/

namespace Sys2Proof.Machine

/-- SKP Vx (R181): OutOfBoundsAccess, kind `key`, when the value of `x[X]` is 16 or more. -/
def execSkp (x : RegIndex) (s : State) : Result :=
  match s.selectedKey x with
  | some k => .next (s.skipIf s.key[k.val])
  | none => raiseOutOfBounds (.skp x) s .key (s.reg x).toNat

/-- SKNP Vx (R182). -/
def execSknp (x : RegIndex) (s : State) : Result :=
  match s.selectedKey x with
  | some k => .next (s.skipIf (!s.key[k.val]))
  | none => raiseOutOfBounds (.sknp x) s .key (s.reg x).toNat

/-- WKEY Vx (R183): the lowest pressed key, or `PC` back to `pc0`; the level of the flags counts (D24; log 19). -/
def execWkey (x : RegIndex) (s : State) : Result :=
  match s.lowestPressed with
  | some k => .next (s.setReg x (BitVec.ofNat 8 k.val))
  | none => .next (s.setPc (s.pc - 2))

end Sys2Proof.Machine
end

