-- ==== Sys2Proof/Machine/MemoryIndex.lean ====
section
/-! DEFINITION. Memory and index register: LDI, LDF, ADDI, STM, LDM, BCD (42_memory_index). -/

namespace Sys2Proof.Machine

/-- LDI nnn (R141). -/
def execLdi (nnn : Addr12) (s : State) : Result := .next (s.setIdx nnn.toWord)

/-- LDF Vx (R142): five times the whole 8-bit value, never an error (D13; log 13). -/
def execLdf (x : RegIndex) (s : State) : Result := .next (s.setIdx (5 * (s.reg x).toWord))

/-- ADDI Vx (R143): modulo 65536, no flag effect. -/
def execAddi (x : RegIndex) (s : State) : Result := .next (s.setIdx (s.idx + (s.reg x).toWord))

/-- STM Vx (R144), at the default FONT_WRITE_POLICY. -/
def execStm (x : RegIndex) (s : State) : Result :=
  storeThroughIndex Params.fontWritePolicy (.stm x) (s.regsUpTo x) s

/-- LDM Vx (R145). -/
def execLdm (x : RegIndex) (s : State) : Result :=
  loadThroughIndex (.ldm x) (x.val + 1) s fun bytes => s.setRegs (loadRegs s.x 0 bytes)

/-- Hundreds, tens and ones of a value 0 to 255, each a byte 0 to 9, by integer division (R146). -/
def bcdDigits (v : Byte) : List Byte :=
  [BitVec.ofNat 8 (v.toNat / 100), BitVec.ofNat 8 (v.toNat / 10 % 10), BitVec.ofNat 8 (v.toNat % 10)]

/-- BCD Vx (R146), at the default FONT_WRITE_POLICY. -/
def execBcd (x : RegIndex) (s : State) : Result :=
  storeThroughIndex Params.fontWritePolicy (.bcd x) (bcdDigits (s.reg x)) s

end Sys2Proof.Machine
end

