-- ==== Sys2Proof/Machine/NoopClear.lean ====
section
/-! DEFINITION. No-op and clear-screen: NOP, CLS (47_noop_clear). -/

namespace Sys2Proof.Machine

/-- NOP (R201): nothing but the advance of `PC`, which the fetch phase has done. -/
def execNop (s : State) : Result := .next s

/-- CLS (R202): every pixel off. -/
def execCls (s : State) : Result := .next (s.setFb Framebuffer.clear)

end Sys2Proof.Machine
end

