-- ==== Sys2Proof/Machine/Random.lean ====
section
/-! DEFINITION. RND (43_random). -/

namespace Sys2Proof.Machine

/-- RND Vx, kk with the STEP input `rnd` named (R161): `x[X] <- rnd & kk`. -/
def rndWith (rnd : Byte) (x : RegIndex) (kk : Byte) (s : State) : Result := .next ((s.setReg x (rnd &&& kk)).countDraw)

/-- RND Vx, kk (R161), `rnd` being the free byte of this draw (R160; log 1). -/
def execRnd (x : RegIndex) (kk : Byte) (s : State) : Result := rndWith (Config.rnd s.draws) x kk s

end Sys2Proof.Machine
end

