-- ==== Sys2Proof/Machine/Timers.lean ====
section
/-! DEFINITION. The timer instructions: LDDT, STDT, STST (46_timers). The decrement is TICK's, in
Sys2Proof/Machine/Operations.lean. -/

namespace Sys2Proof.Machine

/-- LDDT Vx (R191). -/
def execLddt (x : RegIndex) (s : State) : Result := .next (s.setReg x s.dt)

/-- STDT Vx (R192). -/
def execStdt (x : RegIndex) (s : State) : Result := .next (s.setDt (s.reg x))

/-- STST Vx (R193): no output is raised. -/
def execStst (x : RegIndex) (s : State) : Result := .next (s.setSt (s.reg x))

end Sys2Proof.Machine
end

