-- ==== Sys2Proof/Machine/Fetch.lean ====
section
/-! DEFINITION. The fetch phase of STEP (30_encoding R71, 20_memory R53, R56). -/

namespace Sys2Proof.Machine

/-- The instruction word at `PC`, big-endian, or OutOfBoundsAccess of kind `fetch` with the first of the two addresses
that is 4096 or more; `word` is absent from that record (30_encoding R71, 60_exceptions R211). `PC` may be odd
(20_memory R57, D17; log 16). -/
def fetch (s : State) : Except Fault Word :=
  match firstFailing (readCheck .fetch) s.pc.toNat 2 with
  | some (k, a) => .error (.outOfBoundsAccess s.pc none k (BitVec.ofNat 16 a))
  | none => .ok (Word.ofBytes (s.mem.read s.pc.toNat) (s.mem.read (s.pc.toNat + 1)))

/-- The word stored where the next fetch reads it, as the bytes a LOAD would leave there. -/
def storeFetchWord (s : State) (w : Word) : State :=
  s.setMem (s.mem.writeBytes s.pc.toNat [w.hiByte, w.loByte])

end Sys2Proof.Machine
end

