-- ==== Sys2Proof/Machine/Step.lean ====
section
/-! DEFINITION. The STEP operation (30_encoding R70): fetch, advance `PC` by 2, decode, execute. -/

namespace Sys2Proof.Machine

/-- One fetch-decode-execute cycle (30_encoding R70 to R72, R77, R78). The order of errors is fetch, decode, execute
(60_exceptions R218). -/
def step (s : State) : Host.Outcome State Fault Refusal :=
  match fetch s with
  | .error f => .fault f
  | .ok w =>
    match decode w with
    | .unknownOpcode word => .fault (.unknownOpcode s.pc word)
    | .instr i => exec i s.advance

/-- `s` with the instruction of `nbits` bits `w`, the bits above `nbits` zero, stored where `step` fetches its next
instruction: it stands for the LOAD that places a program (70_reset R253; log 22). -/
def State.withFetchWord (s : State) (nbits w : Nat) : State :=
  storeFetchWord s (BitVec.ofNat 16 (w % 2 ^ nbits))

end Sys2Proof.Machine
end

