-- ==== Sys2Proof/Machine/Errors.lean ====
section
/-! DEFINITION. The fields of the error record (60_exceptions R211, R212). The codes are the spec's own (D9; log 9). No
state of the machine depends on them. -/

namespace Sys2Proof.Machine

/-- `code`, 1 to 5 (R211). -/
def Fault.code : Fault → Nat
  | .unknownOpcode _ _ => 1
  | .outOfBoundsAccess _ _ _ _ => 2
  | .stackOverflow _ _ => 3
  | .stackUnderflow _ _ => 4
  | .programTooLarge _ => 5

/-- `pc0`, the address of the failing instruction; a failed LOAD has none (R212). -/
def Fault.pc0 : Fault → Option Word
  | .unknownOpcode pc0 _ => some pc0
  | .outOfBoundsAccess pc0 _ _ _ => some pc0
  | .stackOverflow pc0 _ => some pc0
  | .stackUnderflow pc0 _ => some pc0
  | .programTooLarge _ => none

/-- `word`, "not present when the fetch itself failed" (R212). -/
def Fault.word : Fault → Option Word
  | .unknownOpcode _ word => some word
  | .outOfBoundsAccess _ word _ _ => word
  | .stackOverflow _ word => some word
  | .stackUnderflow _ word => some word
  | .programTooLarge _ => none

/-- `kind`, "for code 2 only" (R212). -/
def Fault.kind : Fault → Option AccessKind
  | .outOfBoundsAccess _ _ kind _ => some kind
  | .unknownOpcode _ _ => none
  | .stackOverflow _ _ => none
  | .stackUnderflow _ _ => none
  | .programTooLarge _ => none

/-- `addr`, "for code 2" (R212). -/
def Fault.addr : Fault → Option Word
  | .outOfBoundsAccess _ _ _ addr => some addr
  | .unknownOpcode _ _ => none
  | .stackOverflow _ _ => none
  | .stackUnderflow _ _ => none
  | .programTooLarge _ => none

/-- `len`, of a failed LOAD (R212). -/
def Fault.len : Fault → Option Nat
  | .programTooLarge len => some len
  | .unknownOpcode _ _ => none
  | .outOfBoundsAccess _ _ _ _ => none
  | .stackOverflow _ _ => none
  | .stackUnderflow _ _ => none

end Sys2Proof.Machine
end

