-- ==== Sys2Proof/Machine/Operations.lean ====
section
/-! DEFINITION. The six operations at the block's boundary (00_scope R7): RESET, LOAD, STEP, TICK, SETKEY, READFB, each
atomic, in any order the environment chooses (log 17). -/

namespace Sys2Proof.Machine

/-- An operation with its inputs (00_scope R7). `index` of SETKEY is a 4-bit port (60_exceptions R225; D22; log 18). -/
inductive Operation
  | reset
  | load (bytes : List Byte)
  | step (rnd : Byte)
  | tick
  | setKey (index : Fin 16) (pressed : Bool)
  | readFb
deriving DecidableEq, Repr

/-- The outputs of an operation (00_scope R7). -/
inductive Response
  /-- RESET and SETKEY have no output. -/
  | done
  /-- A LOAD or STEP that succeeded. -/
  | ok
  /-- A LOAD or STEP that failed, with its record (60_exceptions R212). -/
  | error (f : Fault)
  /-- A STEP whose instruction has no meaning in the model; none is left. -/
  | refused (r : Refusal)
  /-- The output of TICK (60_exceptions R223). -/
  | beep (b : Bool)
  /-- The output of READFB (60_exceptions R227). -/
  | pixels (p : Vector Bool (32 * 64))
deriving DecidableEq, Repr

/-- RESET (70_reset R250, R251): every item of the spec's state to its reset value, whatever the state was. The model's own
draw counter goes on counting, so that the draws after a RESET are fresh (43_random R160; log 26). -/
def doReset (s : State) : State := { State.reset with draws := s.draws }

/-- LOAD (70_reset R253 to R255): the bytes verbatim from 0x200 up, directly and not through MemWrite;
ProgramTooLarge above 3584 bytes, with nothing written. -/
def load (bytes : List Byte) (s : State) : Result :=
  if Config.maxProgram < bytes.length then raise (.programTooLarge bytes.length)
  else .next (s.setMem (s.mem.writeBytes Config.loadBase bytes))

/-- The execute phase with STEP's input named: RND uses it, every other instruction ignores it (43_random R160). -/
def execWith (rnd : Byte) (i : Instr) (s : State) : Result :=
  match i with
  | .rnd x kk => rndWith rnd x kk s
  | other => exec other s

/-- `STEP(rnd)` (30_encoding R70). `step` is this operation on the free byte of the state's next draw. -/
def stepWith (rnd : Byte) (s : State) : Result :=
  match fetch s with
  | .error f => .fault f
  | .ok w =>
    match decode w with
    | .unknownOpcode word => .fault (.unknownOpcode s.pc word)
    | .instr i => execWith rnd i s.advance

/-- One timer's decrement, floor at zero (60_exceptions R221, R222). -/
def countDown (t : Byte) : Byte := if t = 0 then 0 else t - 1

/-- `beep` of a TICK: true exactly when it takes `ST` from 1 to 0 (60_exceptions R221, R223). -/
def beepOf (s : State) : Bool := s.st == 1

/-- TICK (60_exceptions R221): both timers, independently. -/
def tick (s : State) : State := (s.setDt (countDown s.dt)).setSt (countDown s.st)

/-- SETKEY (60_exceptions R225). -/
def setKey (index : Fin 16) (pressed : Bool) (s : State) : State := s.setKeyFlag index pressed

/-- READFB (60_exceptions R227): the pixels as a flat row-major vector, element `row * 64 + col` (10_state R26). -/
def readFb (s : State) : Vector Bool (32 * 64) := s.fb.flatten

/-- What the environment sees of a STEP or LOAD: on success the new state; on an error the whole state as it was before,
with the record (60_exceptions R213; D8; log 8). -/
def settle (before : State) : Result → State × Response
  | .next after => (after, .ok)
  | .fault f => (before, .error f)
  | .refused r => (before, .refused r)

/-- One operation: the state after it and its response (00_scope R7). -/
def operate (op : Operation) (s : State) : State × Response :=
  match op with
  | .reset => (doReset s, .done)
  | .load bytes => settle s (load bytes s)
  | .step rnd => settle s (stepWith rnd s)
  | .tick => (tick s, .beep (beepOf s))
  | .setKey index pressed => (setKey index pressed s, .done)
  | .readFb => (s, .pixels (readFb s))

/-- A finite sequence of operations and their responses, in order (00_scope R7). -/
def runOps : List Operation → State → State × List Response
  | [], s => (s, [])
  | op :: ops, s =>
    let now := operate op s
    let later := runOps ops now.1
    (later.1, now.2 :: later.2)

/-- The state after the first `k` operations of an infinite sequence (00_scope R7). -/
def stateAfter (ops : Nat → Operation) (s : State) : Nat → State
  | 0 => s
  | k + 1 => (operate (ops k) (stateAfter ops s k)).1

/-- The boot sequence the environment owes the machine before its first STEP: RESET, then LOAD of the image
(70_reset R256; log 22). -/
def boot (image : List Byte) : State × List Response := runOps [.reset, .load image] State.reset

end Sys2Proof.Machine
end

