-- ==== Sys2Proof/Safety.lean ====
section
/-! DEFINITION. The terms claims are stated in: what a step answered, what an instruction or an operation may change, the
invariant of the machine, and when a program has finished. -/

namespace Sys2Proof.Machine

/-- The state a result goes on with, if it goes on. -/
def nextOf : Result → Option State
  | .next s => some s
  | .fault _ => none
  | .refused _ => none

/-- The error a result ends with, if it ends with one. -/
def faultOf : Result → Option Fault
  | .next _ => none
  | .fault f => some f
  | .refused _ => none

/-! ### Parts of the state, as a program or the environment reads them -/

/-- The ten items of 10_state R20, `stack` standing for the stack and its pointer, and the model's draw counter. -/
inductive Part
  | mem
  | regs
  | idx
  | pc
  | stack
  | fb
  | key
  | dt
  | st
  | draws
deriving DecidableEq, Repr

/-- The part reads the same in both states: every byte of memory, every register, every stack entry, every pixel. -/
def SamePart (s t : State) : Part → Prop
  | .mem => ∀ a, t.mem.read a = s.mem.read a
  | .regs => ∀ r, t.reg r = s.reg r
  | .idx => t.idx = s.idx
  | .pc => t.pc = s.pc
  | .stack => t.sp = s.sp ∧ ∀ k : Fin 16, t.stack[k.val] = s.stack[k.val]
  | .fb => ∀ col row, t.fb.pixel col row = s.fb.pixel col row
  | .key => ∀ k : Fin 16, t.key[k.val] = s.key[k.val]
  | .dt => t.dt = s.dt
  | .st => t.st = s.st
  | .draws => t.draws = s.draws

/-- Every part but the listed ones reads in `t` as it does in `s`. -/
def OnlyChanges (parts : List Part) (s t : State) : Prop := ∀ p, p ∉ parts → SamePart s t p

/-- What each instruction may change beyond the advance of `PC` in the fetch phase (10_state R22 to R29, 20_memory R58,
40_control_transfer R109); RND advances the model's own draw counter (log 1). -/
def mayChange : Instr → List Part
  | .nop => []
  | .cls => [.fb]
  | .ret => [.pc, .stack]
  | .jp _ => [.pc]
  | .call _ => [.pc, .stack]
  | .seb _ _ => [.pc]
  | .sneb _ _ => [.pc]
  | .se _ _ => [.pc]
  | .ldb _ _ => [.regs]
  | .addb _ _ => [.regs]
  | .mov _ _ => [.regs]
  | .or _ _ => [.regs]
  | .and _ _ => [.regs]
  | .xor _ _ => [.regs]
  | .add _ _ => [.regs]
  | .sub _ _ => [.regs]
  | .shr _ => [.regs]
  | .subn _ _ => [.regs]
  | .shl _ => [.regs]
  | .sne _ _ => [.pc]
  | .ldi _ => [.idx]
  | .jpv0 _ => [.pc]
  | .rnd _ _ => [.regs, .draws]
  | .drw _ _ _ => [.fb, .regs]
  | .skp _ => [.pc]
  | .sknp _ => [.pc]
  | .lddt _ => [.regs]
  | .wkey _ => [.regs, .pc]
  | .stdt _ => [.dt]
  | .stst _ => [.st]
  | .addi _ => [.idx]
  | .ldf _ => [.idx]
  | .bcd _ => [.mem]
  | .stm _ => [.mem]
  | .ldm _ => [.regs]

/-- The registers each instruction may write: its destination X, the flag register for the six instructions of the list in
10_state R22, and `x[0..X]` for LDM. -/
def mayWriteReg : Instr → RegIndex → Bool
  | .ldb x _, r => r == x
  | .addb x _, r => r == x
  | .mov x _, r => r == x
  | .or x _, r => r == x
  | .and x _, r => r == x
  | .xor x _, r => r == x
  | .add x _, r => r == x || r == 15
  | .sub x _, r => r == x || r == 15
  | .shr x, r => r == x || r == 15
  | .subn x _, r => r == x || r == 15
  | .shl x, r => r == x || r == 15
  | .rnd x _, r => r == x
  | .drw _ _ _, r => r == 15
  | .lddt x, r => r == x
  | .wkey x, r => r == x
  | .ldm x, r => decide (r ≤ x)
  | .nop, _ => false
  | .cls, _ => false
  | .ret, _ => false
  | .jp _, _ => false
  | .call _, _ => false
  | .seb _ _, _ => false
  | .sneb _ _, _ => false
  | .se _ _, _ => false
  | .sne _ _, _ => false
  | .ldi _, _ => false
  | .jpv0 _, _ => false
  | .skp _, _ => false
  | .sknp _, _ => false
  | .stdt _, _ => false
  | .stst _, _ => false
  | .addi _, _ => false
  | .ldf _, _ => false
  | .bcd _, _ => false
  | .stm _, _ => false

/-- The parts of the state each operation may change (the table of 00_scope R7, and R8); the table's LOAD changes, of memory,
only what stands from 0x200 up. RESET sets everything but the model's own draw counter (log 26), and STEP may advance that
counter (log 1). -/
def operationMayChange : Operation → List Part
  | .reset => [.mem, .regs, .idx, .pc, .stack, .fb, .key, .dt, .st]
  | .load _ => [.mem]
  | .step _ => [.regs, .idx, .pc, .stack, .mem, .fb, .dt, .st, .draws]
  | .tick => [.dt, .st]
  | .setKey _ _ => [.key]
  | .readFb => []

/-! ### The invariant (10_state R35) -/

/-- `mem[0x000..0x04F]` equals FONT (10_state R35). -/
def FontIntact (s : State) : Prop := ∀ a, a < Config.fontLen → s.mem.read a = Params.font.getD a 0

/-- No valid stack entry is above 4096, the highest address CALL pushes (10_state R24). -/
def StackBounded (s : State) : Prop := ∀ k : Fin 16, k.val < s.sp.val → s.stack[k.val].toNat ≤ 4096

/-- `PC <= 0x10FE` (10_state R24, R35). -/
def PcBounded (s : State) : Prop := s.pc.toNat ≤ 0x10FE

/-- The invariant of the machine (10_state R24, R35; the canonical form of memory is the model's own, log 23). -/
structure Invariant (s : State) : Prop where
  memory : s.mem.wf = true
  font   : FontIntact s
  stack  : StackBounded s
  pc     : PcBounded s

/-! ### Runs -/

/-- "the program has finished": `PC` is at an address holding `1nnn` with `nnn = PC` (60_exceptions R234). -/
def Finished (s : State) : Prop :=
  s.pc.toNat < 4095 ∧ fetch s = .ok (encode (.jp (s.pc.setWidth 12)))

/-- A run of `k` STEPs without an error: "a run that reaches an error [is] faulted" (60_exceptions R215). -/
def RunsSafely (k : Nat) (s : State) : Prop := ∃ t, Sys2Proof.core.run k s = .next t

end Sys2Proof.Machine
end

