-- ==== Sys2Proof/Certificates/Slice0/Obligations.lean ====
section
/-! DEFINITION. The statements for the provers. `exec` gets the state with `PC` already advanced (30_encoding R72), so
`s.pc` in a statement about `exec` is `pc0 + 2`, and an instruction that leaves it alone ends at `pc0 + 2`. A statement
about what memory reads after a store has the canonical form of memory as a premise (log 23); that every step and every
operation keeps it is `Obligations.InvariantKeptByEveryStep` and `Obligations.InvariantKeptByEveryOperation`. -/

open Sys2Proof Sys2Proof.Machine

/-! ### Shapes of statement -/

/-- The word at an address, big-endian (20_memory R56). -/
def Sys2Proof.Machine.wordAt (s : State) (a : Nat) : Word := Word.ofBytes (s.mem.read a) (s.mem.read (a + 1))

/-- `i` completes; register `x` ends with the value `v`; every other register and everything else is unchanged. -/
def Sys2Proof.Machine.WritesOneRegister (i : Instr) (s : State) (x : RegIndex) (v : Nat) : Prop :=
  ∃ t, exec i s = .next t ∧ (t.reg x).toNat = v ∧ (∀ r, r ≠ x → t.reg r = s.reg r) ∧ OnlyChanges [.regs] s t

/-- `i` completes; the flag register ends with `flag`, and register `x`, unless it is the flag register, with `v`; every
other register and everything else is unchanged. -/
def Sys2Proof.Machine.WritesResultThenFlag (i : Instr) (s : State) (x : RegIndex) (v flag : Nat) : Prop :=
  ∃ t, exec i s = .next t ∧ (x ≠ 15 → (t.reg x).toNat = v) ∧ (t.reg 15).toNat = flag ∧
    (∀ r, r ≠ x → r ≠ 15 → t.reg r = s.reg r) ∧ OnlyChanges [.regs] s t

/-- `i` completes; `PC` gains 2 exactly when `c` holds; everything else is unchanged. -/
def Sys2Proof.Machine.SkipsExactlyWhen (i : Instr) (s : State) (c : Prop) : Prop :=
  ∃ t, exec i s = .next t ∧ (c → t.pc = s.pc + 2) ∧ (¬ c → t.pc = s.pc) ∧ OnlyChanges [.pc] s t

/-- The error `f` is one that 60_exceptions R216 lists for the instruction `i`. -/
def Sys2Proof.Machine.MayRaise (i : Instr) (f : Fault) : Prop :=
  (f.code = 3 ∧ i.mnemonic = "CALL") ∨ (f.code = 4 ∧ i.mnemonic = "RET") ∨
  (f.kind = some .read ∧ (i.mnemonic = "DRW" ∨ i.mnemonic = "LDM")) ∨
  ((f.kind = some .write ∨ f.kind = some .romWrite) ∧ (i.mnemonic = "STM" ∨ i.mnemonic = "BCD")) ∨
  (f.kind = some .key ∧ (i.mnemonic = "SKP" ∨ i.mnemonic = "SKNP"))

/-- The set bit of the sprite at `I`, `n` rows high, that lands on pixel (`col`, `row`) when the top-left pixel stands at
column `vx` and row `vy`: sprite row `r`, sprite column `c`, bit `7 - c`, each axis wrapped by itself (44_display R165 to
R167). -/
def Sys2Proof.Machine.SpriteCovers (s : State) (vx vy n : Nat) (col : Fin 64) (row : Fin 32) : Prop :=
  ∃ r c, r < n ∧ c < 8 ∧ (s.mem.read (s.idx.toNat + r)).getLsbD (7 - c) = true ∧
    (vx + c) % 64 = col.val ∧ (vy + r) % 32 = row.val

/-! ### Encoding (30_encoding) -/

/-- Decoding an encoded instruction gives it back, for every instruction and every operand (30_encoding R76, R77); from
bytes, with the bytes after it left over. The numbers are the spec's choice D3 (log 3). -/
def Obligations.DecodeOfEncodeIsTheInstruction : Prop :=
  ∀ (i : Instr) (rest : List Byte),
    decode (encode i) = .instr i ∧ decodeBytes (encodeBytes i ++ rest) = some (.instr i, rest)

/-- Encoding what a word decodes to gives the word back, but for the ignored Y of SHR and SHL, which becomes 0
(30_encoding R79, R81; D5, log 5). -/
def Obligations.EncodeOfDecodeKeepsTheWord : Prop :=
  ∀ (w : Word) (i : Instr), decode w = .instr i →
    encode i = if w &&& 0xF00F#16 = 0x8006#16 ∨ w &&& 0xF00F#16 = 0x800E#16 then w &&& 0xFF0F#16 else w

/-- "a word `w` selects the row when `w & mask == match`. The rows are disjoint and what no row matches is UnknownOpcode":
the decoder and the table agree on every word (30_encoding R76, D3, log 3). -/
def Obligations.DecoderAgreesWithTheOpcodeTable : Prop :=
  ∀ w : Word,
    (∀ i, decode w = .instr i → ∃ row, row ∈ opcodeTable ∧ row.selects w = true ∧ row.mnemonic = i.mnemonic ∧
      ∀ other, other ∈ opcodeTable → other.selects w = true → other = row) ∧
    (∀ v, decode w = .unknownOpcode v → v = w ∧ ∀ row, row ∈ opcodeTable → row.selects w = false)

/-- UnknownOpcode is answered for the words of the six groups of 30_encoding R78 and for no others (D4, log 4). -/
def Obligations.UnknownWordsAreTheSixGroups : Prop :=
  ∀ w : Word, ((∃ i, decode w = .instr i) ↔ WellFormed.word w = true) ∧
    (decode w = .unknownOpcode w ↔ WellFormed.word w = false)

/-- Words written out from the spec's encodings and examples decode to the instructions they stand for, one of each
family (30_encoding R76, R81; 95_test_vectors; D3, log 3). -/
def Obligations.SampleWordsDecode : Prop :=
  decode 0x12A4#16 = .instr (.jp 0x2A4#12) ∧ decode 0x332A#16 = .instr (.seb 3 0x2A#8) ∧
  decode 0x8374#16 = .instr (.add 3 7) ∧ decode 0x8126#16 = .instr (.shr 1) ∧
  decode 0xF265#16 = .instr (.ldm 2) ∧ decode 0xC30F#16 = .instr (.rnd 3 0x0F#8) ∧
  decode 0xD125#16 = .instr (.drw 1 2 5) ∧ decode 0xE5A1#16 = .instr (.sknp 5) ∧
  decode 0xF207#16 = .instr (.lddt 2) ∧ decode 0x00E0#16 = .instr .cls ∧
  decode 0x5121#16 = .unknownOpcode 0x5121#16

/-! ### The STEP cycle (30_encoding R70 to R72, 60_exceptions) -/

/-- When the two bytes at `PC`, big-endian, decode to `i`, a step is `i` executed on the state with `PC` advanced by 2 and
nothing else changed (30_encoding R70 to R72; odd `PC` included, D17, log 16). -/
def Obligations.StepRunsTheDecodedInstruction : Prop :=
  ∀ (s : State) (i : Instr), s.pc.toNat ≤ 4094 → decode (wordAt s s.pc.toNat) = .instr i →
    step s = exec i s.advance ∧ s.advance.pc.toNat = s.pc.toNat + 2 ∧ OnlyChanges [.pc] s s.advance

/-- A fetch that leaves memory raises OutOfBoundsAccess, kind `fetch`, with address 4096 for `PC` = 4095 and `PC` above that
(30_encoding R71; the spec's decision D18, log 16). -/
def Obligations.FetchOutsideMemoryFaults : Prop :=
  ∀ s : State, 4095 ≤ s.pc.toNat →
    step s = .fault (.outOfBoundsAccess s.pc none .fetch (if s.pc.toNat = 4095 then 0x1000#16 else s.pc))

/-- A fetched word that is no instruction raises UnknownOpcode with the word and its address (60_exceptions R210,
30_encoding R78; D4, D9, logs 4 and 9). -/
def Obligations.UnknownWordFaults : Prop :=
  ∀ s : State, s.pc.toNat ≤ 4094 → WellFormed.word (wordAt s s.pc.toNat) = false →
    step s = .fault (.unknownOpcode s.pc (wordAt s s.pc.toNat))

/-- The record of a failed STEP carries the address of the failing instruction, the fetched word (absent exactly when the
fetch failed), and a code of STEP's (60_exceptions R211, R212; D9, log 9). -/
def Obligations.FailedStepRecordNamesTheInstruction : Prop :=
  ∀ (s : State) (f : Fault), step s = .fault f →
    f.pc0 = some s.pc ∧ (s.pc.toNat ≤ 4094 → f.word = some (wordAt s s.pc.toNat)) ∧
    (4095 ≤ s.pc.toNat → f.word = none ∧ f.kind = some .fetch) ∧ 1 ≤ f.code ∧ f.code ≤ 4

/-- Which instruction can raise what (60_exceptions R216), and no instruction is refused (kind `rom_write` rests on D11,
log 11). -/
def Obligations.InstructionsRaiseOnlyTheirErrors : Prop :=
  ∀ (i : Instr) (s : State),
    (∀ f, exec i s = .fault f → MayRaise i f) ∧ (∀ r, exec i s ≠ .refused r)

/-- A STEP or LOAD that fails leaves the whole state as it was and hands out the record (60_exceptions R213; D8, log 8). -/
def Obligations.FailedOperationsChangeNothing : Prop :=
  ∀ s : State,
    (∀ rnd f, stepWith rnd s = .fault f → operate (.step rnd) s = (s, .error f)) ∧
    (∀ bytes f, load bytes s = .fault f → operate (.load bytes) s = (s, .error f))

/-- After a failed STEP the machine is stuck: the next STEP fails with the same record, with any random byte, and neither
TICK, READFB nor SETKEY changes that (60_exceptions R215; D31, log 8). -/
def Obligations.FailedStepFailsAgain : Prop :=
  ∀ (s : State) (rnd rnd' : Byte) (f : Fault), stepWith rnd s = .fault f →
    stepWith rnd' s = .fault f ∧ stepWith rnd' (operate .tick s).1 = .fault f ∧
    stepWith rnd' (operate .readFb s).1 = .fault f ∧
    ∀ index pressed, stepWith rnd' (operate (.setKey index pressed) s).1 = .fault f

/-- "RND uses it; every other instruction ignores it": an instruction other than RND does the same whatever random byte the
STEP gets and however many bytes were drawn before (43_random R160; the draw counter is the model's own, log 1). -/
def Obligations.OnlyRndUsesTheRandomByte : Prop :=
  ∀ (i : Instr) (s : State), i.mnemonic ≠ "RND" →
    (∀ rnd, execWith rnd i s = exec i s) ∧
    (∀ d, faultOf (exec i { s with draws := d }) = faultOf (exec i s) ∧
      nextOf (exec i { s with draws := d }) = (nextOf (exec i s)).map fun t => { t with draws := d })

/-- The host's `step` is the STEP operation on the free byte of the state's next draw (30_encoding R70, 43_random R160;
log 1). -/
def Obligations.StepIsTheStepOperationOnAFreeByte : Prop :=
  ∀ s : State, step s = stepWith (Config.rnd s.draws) s

/-! ### Frames over all instructions -/

/-- An instruction that completes changes only its own parts of the state (10_state R22 to R29, 20_memory R58, R63, and the
"Common to this family" rules); that STM, LDM, BCD and DRW keep `I` is D14, log 14; RND's
draw counter is the model's own, log 1. -/
def Obligations.InstructionsChangeOnlyTheirParts : Prop :=
  ∀ (i : Instr) (s t : State), exec i s = .next t → OnlyChanges (mayChange i) s t

/-- A register an instruction does not name as destination, and that no flag or LDM write reaches, keeps its value
(10_state R22; D7, log 7). -/
def Obligations.OtherRegistersKeepTheirValue : Prop :=
  ∀ (i : Instr) (s t : State) (r : RegIndex), exec i s = .next t → mayWriteReg i r = false → t.reg r = s.reg r

/-- "These eleven instructions (JP, CALL, RET, JPV0, SEB, SNEB, SE, SNE, SKP, SKNP, WKEY) are all that write `PC` beyond the
advance of the fetch phase" (40_control_transfer R109). -/
def Obligations.ElevenInstructionsWriteThePc : Prop :=
  ∀ (i : Instr) (s t : State), exec i s = .next t → t.pc ≠ s.pc →
    i.mnemonic ∈ ["JP", "CALL", "RET", "JPV0", "SEB", "SNEB", "SE", "SNE", "SKP", "SKNP", "WKEY"]

/-! ### Control transfer (40_control_transfer) -/

/-- JP: `PC <- zext_16(nnn)`, nothing else, for every address (R101). -/
def Obligations.JumpGoesToItsAddress : Prop :=
  ∀ (nnn : Addr12) (s : State), ∃ t, exec (.jp nnn) s = .next t ∧ t.pc.toNat = nnn.toNat ∧ OnlyChanges [.pc] s t

/-- JPV0: the sum of address and `x[0]`, not reduced to 12 bits (R104; the spec's decision D25, log 20). -/
def Obligations.IndexedJumpAddsRegisterZero : Prop :=
  ∀ (nnn : Addr12) (s : State), ∃ t, exec (.jpv0 nnn) s = .next t ∧
    t.pc.toNat = nnn.toNat + (s.reg 0).toNat ∧ OnlyChanges [.pc] s t

/-- CALL pushes the advanced `PC` and jumps; with 16 entries taken it raises StackOverflow with
`pc0` and the word (R102). -/
def Obligations.CallPushesTheAdvancedPc : Prop :=
  ∀ (nnn : Addr12) (s : State),
    (s.sp.val < 16 → ∃ t, exec (.call nnn) s = .next t ∧ t.pc.toNat = nnn.toNat ∧ t.sp.val = s.sp.val + 1 ∧
      (∀ k : Fin 16, t.stack[k.val] = if k.val = s.sp.val then s.pc else s.stack[k.val]) ∧
      OnlyChanges [.pc, .stack] s t) ∧
    (s.sp.val = 16 → exec (.call nnn) s = .fault (.stackOverflow (s.pc - 2) (encode (.call nnn))))

/-- RET takes the most recent entry into `PC`; with no entry it raises StackUnderflow with `pc0` and the
word (R103). -/
def Obligations.ReturnPopsIntoThePc : Prop :=
  ∀ s : State,
    (∀ k : Fin 16, s.sp.val = k.val + 1 → ∃ t, exec .ret s = .next t ∧ t.pc = s.stack[k.val] ∧ t.sp.val = k.val ∧
      (∀ j : Fin 16, j.val < k.val → t.stack[j.val] = s.stack[j.val]) ∧ OnlyChanges [.pc, .stack] s t) ∧
    (s.sp.val = 0 → exec .ret s = .fault (.stackUnderflow (s.pc - 2) (encode .ret)))

/-- "executing a call followed immediately by a return restores the program counter to its value immediately after the call
instruction", over two STEPs from memory, with the stack as deep as before (R102, R103). -/
def Obligations.CallThenReturnComesBack : Prop :=
  ∀ (s : State) (nnn : Addr12), s.pc.toNat ≤ 4094 → nnn.toNat ≤ 4094 → s.sp.val < 16 →
    decode (wordAt s s.pc.toNat) = .instr (.call nnn) → decode (wordAt s nnn.toNat) = .instr .ret →
    ∃ t u, step s = .next t ∧ step t = .next u ∧ u.pc.toNat = s.pc.toNat + 2 ∧ u.sp = s.sp ∧
      (∀ k : Fin 16, k.val < s.sp.val → u.stack[k.val] = s.stack[k.val]) ∧ OnlyChanges [.pc, .stack] s u

/-- SEB, SNEB, SE, SNE skip exactly when the comparison holds, for every register, the flag register included
(R105 to R108). -/
def Obligations.ComparisonsSkip : Prop :=
  ∀ (x y : RegIndex) (kk : Byte) (s : State),
    SkipsExactlyWhen (.seb x kk) s (s.reg x = kk) ∧ SkipsExactlyWhen (.sneb x kk) s (s.reg x ≠ kk) ∧
    SkipsExactlyWhen (.se x y) s (s.reg x = s.reg y) ∧ SkipsExactlyWhen (.sne x y) s (s.reg x ≠ s.reg y)

/-! ### Arithmetic (41_arithmetic) -/

/-- LDB: "register X equals N and no other register changes", for all registers X (R121). -/
def Obligations.LoadImmediateSetsOneRegister : Prop :=
  ∀ (x : RegIndex) (kk : Byte) (s : State), WritesOneRegister (.ldb x kk) s x kk.toNat

/-- ADDB wraps modulo 256, MOV copies, OR, AND, XOR combine, and none touches the flag register when it is not the
destination (R122 to R126). The destination VF is `Obligations.FlagRegisterIsAPlainDestination`. -/
def Obligations.PlainArithmeticWritesOneRegister : Prop :=
  ∀ (x y : RegIndex) (kk : Byte) (s : State), x ≠ 15 →
    WritesOneRegister (.addb x kk) s x (((s.reg x).toNat + kk.toNat) % 256) ∧
    WritesOneRegister (.mov x y) s x (s.reg y).toNat ∧
    WritesOneRegister (.or x y) s x ((s.reg x).toNat ||| (s.reg y).toNat) ∧
    WritesOneRegister (.and x y) s x ((s.reg x).toNat &&& (s.reg y).toNat) ∧
    WritesOneRegister (.xor x y) s x ((s.reg x).toNat ^^^ (s.reg y).toNat)

/-- The same five with VF as the explicit destination: it is written like any register (the spec's decision D7, log 7). -/
def Obligations.FlagRegisterIsAPlainDestination : Prop :=
  ∀ (y : RegIndex) (kk : Byte) (s : State),
    WritesOneRegister (.addb 15 kk) s 15 (((s.reg 15).toNat + kk.toNat) % 256) ∧
    WritesOneRegister (.mov 15 y) s 15 (s.reg y).toNat ∧
    WritesOneRegister (.or 15 y) s 15 ((s.reg 15).toNat ||| (s.reg y).toNat) ∧
    WritesOneRegister (.and 15 y) s 15 ((s.reg 15).toNat &&& (s.reg y).toNat) ∧
    WritesOneRegister (.xor 15 y) s 15 ((s.reg 15).toNat ^^^ (s.reg y).toNat)

/-- ADD: the sum modulo 256, and 1 in the flag register exactly when it passes 255 (R127). VF as an operand is
`Obligations.FlagIsReadFirstAndWrittenLast`. -/
def Obligations.AdditionRecordsTheCarry : Prop :=
  ∀ (x y : RegIndex) (s : State), x ≠ 15 → y ≠ 15 →
    WritesResultThenFlag (.add x y) s x (((s.reg x).toNat + (s.reg y).toNat) % 256)
      (if (s.reg x).toNat + (s.reg y).toNat > 255 then 1 else 0)

/-- SUB and SUBN: the difference modulo 256, and 1 in the flag register exactly when no borrow occurred, equality
included (R128, R130). VF as an operand is `Obligations.FlagIsReadFirstAndWrittenLast`. -/
def Obligations.SubtractionRecordsNoBorrow : Prop :=
  ∀ (x y : RegIndex) (s : State), x ≠ 15 → y ≠ 15 →
    WritesResultThenFlag (.sub x y) s x (((s.reg x).toNat + 256 - (s.reg y).toNat) % 256)
      (if (s.reg x).toNat ≥ (s.reg y).toNat then 1 else 0) ∧
    WritesResultThenFlag (.subn x y) s x (((s.reg y).toNat + 256 - (s.reg x).toNat) % 256)
      (if (s.reg y).toNat ≥ (s.reg x).toNat then 1 else 0)

/-- SHR and SHL shift `x[X]` in place by one, and the bit shifted out is the flag; with X = 15 the flag is what remains
(R129, R131; the spec's decisions D5 and D6, logs 5 and 6). -/
def Obligations.ShiftsMoveOneBitIntoTheFlag : Prop :=
  ∀ (x : RegIndex) (s : State),
    WritesResultThenFlag (.shr x) s x ((s.reg x).toNat / 2) ((s.reg x).toNat % 2) ∧
    WritesResultThenFlag (.shl x) s x ((s.reg x).toNat * 2 % 256) ((s.reg x).toNat / 128)

/-- ADD, SUB, SUBN with VF as X or Y: operands are read first, the result is written, the flag is written last; with
X = 15 the flag is what remains (R120; the spec's decision D6, log 6). -/
def Obligations.FlagIsReadFirstAndWrittenLast : Prop :=
  ∀ (x y : RegIndex) (s : State), x = 15 ∨ y = 15 →
    WritesResultThenFlag (.add x y) s x (((s.reg x).toNat + (s.reg y).toNat) % 256)
      (if (s.reg x).toNat + (s.reg y).toNat > 255 then 1 else 0) ∧
    WritesResultThenFlag (.sub x y) s x (((s.reg x).toNat + 256 - (s.reg y).toNat) % 256)
      (if (s.reg x).toNat ≥ (s.reg y).toNat then 1 else 0) ∧
    WritesResultThenFlag (.subn x y) s x (((s.reg y).toNat + 256 - (s.reg x).toNat) % 256)
      (if (s.reg y).toNat ≥ (s.reg x).toNat then 1 else 0)

/-! ### Memory and index register (42_memory_index) -/

/-- LDI sets `I` to the address; ADDI adds a register modulo 65536; neither writes a register or a flag (R141, R143). -/
def Obligations.IndexIsLoadedAndAdded : Prop :=
  ∀ (nnn : Addr12) (x : RegIndex) (s : State),
    (∃ t, exec (.ldi nnn) s = .next t ∧ t.idx.toNat = nnn.toNat ∧ OnlyChanges [.idx] s t) ∧
    (∃ t, exec (.addi x) s = .next t ∧ t.idx.toNat = (s.idx.toNat + (s.reg x).toNat) % 65536 ∧
      OnlyChanges [.idx] s t)

/-- LDF sets `I` to five times the whole value of the register, the glyph address of a digit 0 to F and never an error
(R142; the values above 15 are the spec's decision D13, log 13). -/
def Obligations.FontAddressIsFiveTimesTheValue : Prop :=
  ∀ (x : RegIndex) (s : State),
    ∃ t, exec (.ldf x) s = .next t ∧ t.idx.toNat = 5 * (s.reg x).toNat ∧ OnlyChanges [.idx] s t

/-- STM stores `x[0]` to `x[X]` from `I` up, every other byte of memory and everything else unchanged, `I` included
(R144; D11 and D14, logs 11 and 14; `wf` is the model's canonical form, log 23). -/
def Obligations.StoreMultipleWritesTheRegisters : Prop :=
  ∀ (x : RegIndex) (s : State), s.mem.wf = true → 80 ≤ s.idx.toNat → s.idx.toNat + x.val < 4096 →
    ∃ t, exec (.stm x) s = .next t ∧
      (∀ k : RegIndex, k ≤ x → t.mem.read (s.idx.toNat + k.val) = s.reg k) ∧
      (∀ a, a < s.idx.toNat ∨ s.idx.toNat + x.val < a → t.mem.read a = s.mem.read a) ∧ OnlyChanges [.mem] s t

/-- BCD stores the hundreds, tens and ones of `x[X]` at `I`, `I + 1`, `I + 2`, every other byte of memory and everything
else unchanged, `I` included (R146; D11 and D14, logs 11 and 14; `wf`: log 23). -/
def Obligations.BcdStoresThreeDigits : Prop :=
  ∀ (x : RegIndex) (s : State), s.mem.wf = true → 80 ≤ s.idx.toNat → s.idx.toNat + 2 < 4096 →
    ∃ t, exec (.bcd x) s = .next t ∧
      (t.mem.read s.idx.toNat).toNat = (s.reg x).toNat / 100 ∧
      (t.mem.read (s.idx.toNat + 1)).toNat = (s.reg x).toNat / 10 % 10 ∧
      (t.mem.read (s.idx.toNat + 2)).toNat = (s.reg x).toNat % 10 ∧
      (∀ a, a < s.idx.toNat ∨ s.idx.toNat + 2 < a → t.mem.read a = s.mem.read a) ∧ OnlyChanges [.mem] s t

/-- STM and BCD raise OutOfBoundsAccess when a byte would go into the font (kind `rom_write`, address `I`) or past the end
of memory (kind `write`, the lowest such address): 20_memory R54, R65; D8, D10 and D11, logs 8, 10 and 11. -/
def Obligations.StoresOutsideWritableMemoryFault : Prop :=
  ∀ (x : RegIndex) (s : State),
    (s.idx.toNat < 80 →
      exec (.stm x) s = .fault (.outOfBoundsAccess (s.pc - 2) (some (encode (.stm x))) .romWrite s.idx) ∧
      exec (.bcd x) s = .fault (.outOfBoundsAccess (s.pc - 2) (some (encode (.bcd x))) .romWrite s.idx)) ∧
    (4096 ≤ s.idx.toNat + x.val →
      exec (.stm x) s = .fault (.outOfBoundsAccess (s.pc - 2) (some (encode (.stm x))) .write
        (if s.idx.toNat ≤ 4096 then 0x1000#16 else s.idx))) ∧
    (4096 ≤ s.idx.toNat + 2 →
      exec (.bcd x) s = .fault (.outOfBoundsAccess (s.pc - 2) (some (encode (.bcd x))) .write
        (if s.idx.toNat ≤ 4096 then 0x1000#16 else s.idx)))

/-- LDM loads `x[0]` to `x[X]` from `I` up, every other register and everything else unchanged, `I` included; reading the
font is legal (R145; D14, log 14). -/
def Obligations.LoadMultipleReadsTheRegisters : Prop :=
  ∀ (x : RegIndex) (s : State), s.idx.toNat + x.val < 4096 →
    ∃ t, exec (.ldm x) s = .next t ∧ (∀ k : RegIndex, k ≤ x → t.reg k = s.mem.read (s.idx.toNat + k.val)) ∧
      (∀ k : RegIndex, x < k → t.reg k = s.reg k) ∧ OnlyChanges [.regs] s t

/-- LDM and DRW raise OutOfBoundsAccess, kind `read`, with the lowest address past the end of memory, `max(I, 4096)`
(R145, 44_display R166, 20_memory R65; D8 and D10, logs 8 and 10). -/
def Obligations.LoadsOutsideMemoryFault : Prop :=
  ∀ (x y : RegIndex) (n : RowCount) (s : State),
    (4096 ≤ s.idx.toNat + x.val →
      exec (.ldm x) s = .fault (.outOfBoundsAccess (s.pc - 2) (some (encode (.ldm x))) .read
        (if s.idx.toNat ≤ 4096 then 0x1000#16 else s.idx))) ∧
    (0 < n.val → 4096 < s.idx.toNat + n.val →
      exec (.drw x y n) s = .fault (.outOfBoundsAccess (s.pc - 2) (some (encode (.drw x y n))) .read
        (if s.idx.toNat ≤ 4096 then 0x1000#16 else s.idx)))

/-- The other legal values of FONT_WRITE_POLICY: under `store` every byte is written, under `ignore` the bytes that fall in
the font are dropped and the others written; neither faults inside memory (20_memory R54; D11, log 11). -/
def Obligations.FontPoliciesIgnoreAndStore : Prop :=
  ∀ (i : Instr) (vals : List Byte) (s : State), s.mem.wf = true → s.idx.toNat + vals.length ≤ 4096 →
    (∃ t, storeThroughIndex .store i vals s = .next t ∧
      (∀ k (h : k < vals.length), t.mem.read (s.idx.toNat + k) = vals[k]) ∧
      (∀ a, a < s.idx.toNat ∨ s.idx.toNat + vals.length ≤ a → t.mem.read a = s.mem.read a)) ∧
    (∃ t, storeThroughIndex .ignore i vals s = .next t ∧
      (∀ k (h : k < vals.length), 80 ≤ s.idx.toNat + k → t.mem.read (s.idx.toNat + k) = vals[k]) ∧
      (∀ a, a < 80 ∨ a < s.idx.toNat ∨ s.idx.toNat + vals.length ≤ a → t.mem.read a = s.mem.read a))

/-- A word stored by STM is what the very next fetch from there reads (20_memory R61; the spec's decision D20, log 17). -/
def Obligations.StoredWordIsFetchedNext : Prop :=
  ∀ (x : RegIndex) (s t : State), s.mem.wf = true → 1 ≤ x.val → exec (.stm x) s = .next t →
    fetch (t.setPc s.idx) = .ok (Word.ofBytes (s.reg 0) (s.reg 1))

/-! ### Random, display, keypad, timers, no-op and clear (43 to 47) -/

/-- RND leaves some random byte masked with `kk` in `x[X]`, and with STEP's input named, that byte; nothing else changes but
the model's own draw counter (43_random R161; D16, log 1). -/
def Obligations.RandomByteIsMasked : Prop :=
  ∀ (x : RegIndex) (kk : Byte) (s : State),
    (∃ t b, exec (.rnd x kk) s = .next t ∧ t.reg x = b &&& kk ∧ (∀ r, r ≠ x → t.reg r = s.reg r) ∧
      OnlyChanges [.regs, .draws] s t) ∧
    (∀ b, ∃ t, execWith b (.rnd x kk) s = .next t ∧ t.reg x = b &&& kk ∧ (∀ r, r ≠ x → t.reg r = s.reg r) ∧
      OnlyChanges [.regs, .draws] s t)

/-- DRW inverts exactly the pixels under a set bit of the sprite, each axis wrapping per pixel, and writes no register but
VF; with `n = 0` it completes whatever `I` is (44_display R166 to R168; axes and bit order D15, log 15). The drawing loop
refines this closed form. -/
def Obligations.DrawInvertsTheCoveredPixels : Prop :=
  ∀ (x y : RegIndex) (n : RowCount) (s : State), n.val = 0 ∨ s.idx.toNat + n.val ≤ 4096 →
    ∃ t, exec (.drw x y n) s = .next t ∧
      (∀ col row, SpriteCovers s (s.reg x).toNat (s.reg y).toNat n.val col row →
        t.fb.pixel col row = !s.fb.pixel col row) ∧
      (∀ col row, ¬ SpriteCovers s (s.reg x).toNat (s.reg y).toNat n.val col row →
        t.fb.pixel col row = s.fb.pixel col row) ∧
      (∀ r, r ≠ 15 → t.reg r = s.reg r) ∧ OnlyChanges [.fb, .regs] s t

/-- After a DRW `x[15]` is 1 exactly when at least one pixel that was on before is off after it, and 0 otherwise: the union
of all affected pixels (44_display R168). -/
def Obligations.DrawFlagIsTheUnionOfCollisions : Prop :=
  ∀ (x y : RegIndex) (n : RowCount) (s t : State), exec (.drw x y n) s = .next t →
    ((∃ col row, s.fb.pixel col row = true ∧ t.fb.pixel col row = false) → (t.reg 15).toNat = 1) ∧
    ((¬ ∃ col row, s.fb.pixel col row = true ∧ t.fb.pixel col row = false) → (t.reg 15).toNat = 0)

/-- Drawing the same sprite twice at the same place restores every pixel (44_display R168, the document's worked example);
VF is no coordinate, since the first draw overwrites it. -/
def Obligations.DrawingTwiceRestoresTheScreen : Prop :=
  ∀ (x y : RegIndex) (n : RowCount) (s t : State), x ≠ 15 → y ≠ 15 → exec (.drw x y n) s = .next t →
    ∃ u, exec (.drw x y n) t = .next u ∧ ∀ col row, u.fb.pixel col row = s.fb.pixel col row

/-- SKP and SKNP skip by the key whose index is the whole value of `x[X]`; a value of 16 or more raises OutOfBoundsAccess of
kind `key` with that value (45_input R181, R182; D28, log 27). -/
def Obligations.KeySkipsAndKeyFaults : Prop :=
  ∀ (x : RegIndex) (s : State),
    (∀ k : Fin 16, (s.reg x).toNat = k.val →
      SkipsExactlyWhen (.skp x) s (s.key[k.val] = true) ∧ SkipsExactlyWhen (.sknp x) s (s.key[k.val] = false)) ∧
    (16 ≤ (s.reg x).toNat →
      exec (.skp x) s = .fault (.outOfBoundsAccess (s.pc - 2) (some (encode (.skp x))) .key ((s.reg x).setWidth 16)) ∧
      exec (.sknp x) s = .fault (.outOfBoundsAccess (s.pc - 2) (some (encode (.sknp x))) .key ((s.reg x).setWidth 16)))

/-- WKEY: the least pressed key goes into `x[X]`; with no key pressed `PC` goes back by 2 and nothing else changes
(45_input R183; the level of the flags counts, D24, log 19). -/
def Obligations.KeyWaitTakesTheLowestOrRewinds : Prop :=
  ∀ (x : RegIndex) (s : State),
    (∀ k : Fin 16, s.key[k.val] = true → (∀ j : Fin 16, j < k → s.key[j.val] = false) →
      WritesOneRegister (.wkey x) s x k.val) ∧
    ((∀ k : Fin 16, s.key[k.val] = false) →
      ∃ t, exec (.wkey x) s = .next t ∧ t.pc = s.pc - 2 ∧ OnlyChanges [.pc] s t)

/-- LDDT copies `DT`, STDT and STST set a timer, each whole and nothing else (46_timers R191 to R193). -/
def Obligations.TimerInstructionsMoveWholeValues : Prop :=
  ∀ (x : RegIndex) (s : State),
    WritesOneRegister (.lddt x) s x s.dt.toNat ∧
    (∃ t, exec (.stdt x) s = .next t ∧ t.dt = s.reg x ∧ OnlyChanges [.dt] s t) ∧
    (∃ t, exec (.stst x) s = .next t ∧ t.st = s.reg x ∧ OnlyChanges [.st] s t)

/-- NOP changes nothing but the advance of `PC` that the fetch made; CLS turns every pixel off and writes no flag
(47_noop_clear R201, R202). -/
def Obligations.NopAndClearScreen : Prop :=
  ∀ s : State,
    (∃ t, exec .nop s = .next t ∧ OnlyChanges [] s t) ∧
    (∃ t, exec .cls s = .next t ∧ (∀ col row, t.fb.pixel col row = false) ∧ OnlyChanges [.fb] s t)

/-- A finished program stays: a jump to itself leaves the whole state unchanged (60_exceptions R234, 40_control_transfer
R101). -/
def Obligations.JumpToSelfIsFinal : Prop :=
  ∀ s : State, Finished s → step s = .next s

/-! ### The operations (00_scope R7, 60_exceptions, 70_reset_and_hazards) -/

/-- TICK: each nonzero timer counts down by one, `beep` exactly when `ST` was 1, nothing else changes (60_exceptions
R221). -/
def Obligations.TickCountsDownAndSignals : Prop :=
  ∀ s : State, ∃ t b, operate .tick s = (t, .beep b) ∧ t.dt.toNat = s.dt.toNat - 1 ∧ t.st.toNat = s.st.toNat - 1 ∧
    (b = true ↔ s.st.toNat = 1) ∧ OnlyChanges [.dt, .st] s t

/-- "A timer loaded with `v` reaches 0 after exactly `v` TICKs and stays there": after `k` TICKs it holds `v - k`, floored
at 0 (60_exceptions R222). -/
def Obligations.TimersReachZeroAndStay : Prop :=
  ∀ (s : State) (k : Nat),
    (stateAfter (fun _ => .tick) s k).dt.toNat = s.dt.toNat - k ∧
    (stateAfter (fun _ => .tick) s k).st.toNat = s.st.toNat - k

/-- SETKEY writes one key flag and nothing else, and has no error (60_exceptions R225; the 4-bit port is D22, log 18). -/
def Obligations.SetKeyWritesOneFlag : Prop :=
  ∀ (index : Fin 16) (pressed : Bool) (s : State), ∃ t, operate (.setKey index pressed) s = (t, .done) ∧
    t.key[index.val] = pressed ∧ (∀ k : Fin 16, k ≠ index → t.key[k.val] = s.key[k.val]) ∧ OnlyChanges [.key] s t

/-- READFB returns every pixel, element `row * 64 + col`, and changes nothing (60_exceptions R227; the linear index is
D15, log 15). -/
def Obligations.ReadFbReturnsThePixels : Prop :=
  ∀ s : State, ∃ p, operate .readFb s = (s, .pixels p) ∧
    ∀ (col : Fin 64) (row : Fin 32), p[row.val * 64 + col.val]? = some (s.fb.pixel col row)

/-- LOAD of at most 3584 bytes copies them to 0x200 up; every other byte of memory, the tail of an earlier image included,
and everything else is unchanged (70_reset R253, R255; `wf`: log 23). -/
def Obligations.LoadCopiesTheImage : Prop :=
  ∀ (bytes : List Byte) (s : State), s.mem.wf = true → bytes.length ≤ 3584 →
    ∃ t, operate (.load bytes) s = (t, .ok) ∧
      (∀ k (h : k < bytes.length), t.mem.read (0x200 + k) = bytes[k]) ∧
      (∀ a, a < 0x200 ∨ 0x200 + bytes.length ≤ a → t.mem.read a = s.mem.read a) ∧ OnlyChanges [.mem] s t

/-- LOAD of more than 3584 bytes is ProgramTooLarge with the length, and nothing is written (70_reset R254; D21, log 29). -/
def Obligations.LoadTooLargeWritesNothing : Prop :=
  ∀ (bytes : List Byte) (s : State), 3584 < bytes.length →
    operate (.load bytes) s = (s, .error (.programTooLarge bytes.length))

/-- RESET sets every item to its reset value from any state: memory to the font and zeros, everything else to zero, and `PC`
to 0x200 (10_state R34, 70_reset R250, R251; the entry point is the spec's decision D2, the font bytes D12: logs 2
and 12). -/
def Obligations.ResetSetsEveryItem : Prop :=
  ∀ s : State, ∃ t, operate .reset s = (t, .done) ∧ t.pc = 0x200#16 ∧ t.idx = 0 ∧ t.sp.val = 0 ∧ t.dt = 0 ∧ t.st = 0 ∧
    (∀ r, t.reg r = 0) ∧ (∀ k : Fin 16, t.stack[k.val] = 0) ∧ (∀ k : Fin 16, t.key[k.val] = false) ∧
    (∀ col row, t.fb.pixel col row = false) ∧ (∀ a, 80 ≤ a → t.mem.read a = 0) ∧
    (t.mem.readBytes 0 80) = Params.font ∧ t.mem.read 0 = 0xF0 ∧ t.mem.read 0x4F = 0x80

/-- Each operation changes only the state the table of 00_scope R7 lets it change: LOAD nothing but memory, and of memory
nothing below 0x200; STEP never a key; TICK nothing but the timers; SETKEY nothing but the keys; READFB nothing (00_scope R7,
R8; D1, log 17). RESET may change everything the spec gives the machine; that it keeps the model's own draw counter is the
model's DESIGN CHOICE of log 26, and that counter is also what STEP may change beyond R7's list (log 1). -/
def Obligations.OperationsChangeOnlyWhatTheyMay : Prop :=
  (∀ (op : Operation) (s : State), OnlyChanges (operationMayChange op) s (operate op s).1) ∧
  ∀ (bytes : List Byte) (s : State) (a : Nat), a < 0x200 → (operate (.load bytes) s).1.mem.read a = s.mem.read a

/-! ### The invariant (10_state R35) -/

/-- Every step keeps the invariant: canonical memory, the font intact, `PC <= 0x10FE`, every valid stack entry at most 4096
(10_state R24, R35; the font under the default policy, D11; log 23). -/
def Obligations.InvariantKeptByEveryStep : Prop :=
  ∀ s t : State, Invariant s → step s = .next t → Invariant t

/-- Every operation of the environment, STEP with any random byte included, keeps the invariant (10_state R35, 00_scope
R7). -/
def Obligations.InvariantKeptByEveryOperation : Prop :=
  ∀ (op : Operation) (s : State), Invariant s → Invariant (operate op s).1

/-- The state after reset meets the invariant (10_state R34, R35). -/
def Obligations.ResetMeetsTheInvariant : Prop := Invariant State.reset
end

