-- ==== Sys2Proof/Laws/Decode.lean ====
section
/-! SUPPORT. The fields of an encoded word, by format: each field reads back as it was placed (30_encoding R73, R74). -/

namespace Sys2Proof

/-- Slicing the top of a concatenation, and the bottom of it, as arithmetic on the value. -/
theorem toNat_append_eq {n m : Nat} (a : BitVec n) (b : BitVec m) : (a ++ b).toNat = a.toNat * 2 ^ m + b.toNat := by
  rw [BitVec.toNat_append, ← Nat.shiftLeft_add_eq_or_of_lt b.isLt, Nat.shiftLeft_eq]

theorem encodeA_toNat (f : BitVec 4) (nnn : Addr12) : (encodeA f nnn).toNat = f.toNat * 4096 + nnn.toNat :=
  toNat_append_eq f nnn

theorem encodeXK_toNat (f : BitVec 4) (x : RegIndex) (kk : Byte) :
    (encodeXK f x kk).toNat = f.toNat * 4096 + x.val * 256 + kk.toNat := by
  have hx := x.isLt
  have h1 := toNat_append_eq (f ++ BitVec.ofNat 4 x.val) kk
  have h2 := toNat_append_eq f (BitVec.ofNat 4 x.val)
  rw [h2, BitVec.toNat_ofNat] at h1
  exact h1.trans (by omega)

theorem encodeXYN_toNat (f : BitVec 4) (x y : RegIndex) (n : Fin 16) :
    (encodeXYN f x y n).toNat = f.toNat * 4096 + x.val * 256 + y.val * 16 + n.val := by
  have hx := x.isLt
  have hy := y.isLt
  have hn := n.isLt
  have h1 := toNat_append_eq (f ++ BitVec.ofNat 4 x.val ++ BitVec.ofNat 4 y.val) (BitVec.ofNat 4 n.val)
  have h2 := toNat_append_eq (f ++ BitVec.ofNat 4 x.val) (BitVec.ofNat 4 y.val)
  have h3 := toNat_append_eq f (BitVec.ofNat 4 x.val)
  rw [h2, h3, BitVec.toNat_ofNat, BitVec.toNat_ofNat, BitVec.toNat_ofNat] at h1
  exact h1.trans (by omega)

/-! ### The fields as arithmetic on the word -/

theorem Word.n3_val (w : Word) : (Word.n3 w).val = w.toNat / 4096 := by
  have := w.isLt
  simp [Word.n3, Nat.shiftRight_eq_div_pow]
  omega

theorem Word.x_val (w : Word) : (Word.x w).val = w.toNat / 256 % 16 := by
  simp [Word.x, Nat.shiftRight_eq_div_pow]

theorem Word.y_val (w : Word) : (Word.y w).val = w.toNat / 16 % 16 := by
  simp [Word.y, Nat.shiftRight_eq_div_pow]

theorem Word.n0_val (w : Word) : (Word.n0 w).val = w.toNat % 16 := by
  simp [Word.n0]

theorem Word.kk_toNat (w : Word) : (Word.kk w).toNat = w.toNat % 256 := by
  simp [Word.kk]

theorem Word.nnn_toNat (w : Word) : (Word.nnn w).toNat = w.toNat % 4096 := by
  simp [Word.nnn]

/-- The two bytes of a word, put together again, are the word. -/
@[simp] theorem Word.ofBytes_hiByte_loByte (w : Word) : Word.ofBytes (Word.hiByte w) (Word.loByte w) = w := by
  apply BitVec.eq_of_toNat_eq
  have hw := w.isLt
  have h := toNat_append_eq (w.extractLsb' 8 8) (w.extractLsb' 0 8)
  rw [BitVec.extractLsb'_toNat, BitVec.extractLsb'_toNat, Nat.shiftRight_eq_div_pow, Nat.shiftRight_zero] at h
  exact h.trans (by omega)

/-! ### The fields of an encoded word -/

@[simp] theorem encodeA_n3 (f : BitVec 4) (nnn : Addr12) : (Word.n3 (encodeA f nnn)).val = f.toNat := by
  have := nnn.isLt
  rw [Word.n3_val, encodeA_toNat]
  omega

@[simp] theorem encodeA_nnn (f : BitVec 4) (nnn : Addr12) : Word.nnn (encodeA f nnn) = nnn := by
  apply BitVec.eq_of_toNat_eq
  have := nnn.isLt
  rw [Word.nnn_toNat, encodeA_toNat]
  omega

@[simp] theorem encodeXK_n3 (f : BitVec 4) (x : RegIndex) (kk : Byte) :
    (Word.n3 (encodeXK f x kk)).val = f.toNat := by
  have := x.isLt
  have := kk.isLt
  rw [Word.n3_val, encodeXK_toNat]
  omega

@[simp] theorem encodeXK_x (f : BitVec 4) (x : RegIndex) (kk : Byte) : Word.x (encodeXK f x kk) = x := by
  apply Fin.ext
  have := x.isLt
  have := kk.isLt
  rw [Word.x_val, encodeXK_toNat]
  omega

@[simp] theorem encodeXK_kk (f : BitVec 4) (x : RegIndex) (kk : Byte) : Word.kk (encodeXK f x kk) = kk := by
  apply BitVec.eq_of_toNat_eq
  have := kk.isLt
  rw [Word.kk_toNat, encodeXK_toNat]
  omega

@[simp] theorem encodeXYN_n3 (f : BitVec 4) (x y : RegIndex) (n : Fin 16) :
    (Word.n3 (encodeXYN f x y n)).val = f.toNat := by
  have := x.isLt
  have := y.isLt
  have := n.isLt
  rw [Word.n3_val, encodeXYN_toNat]
  omega

@[simp] theorem encodeXYN_x (f : BitVec 4) (x y : RegIndex) (n : Fin 16) : Word.x (encodeXYN f x y n) = x := by
  apply Fin.ext
  have := x.isLt
  have := y.isLt
  have := n.isLt
  rw [Word.x_val, encodeXYN_toNat]
  omega

@[simp] theorem encodeXYN_y (f : BitVec 4) (x y : RegIndex) (n : Fin 16) : Word.y (encodeXYN f x y n) = y := by
  apply Fin.ext
  have := x.isLt
  have := y.isLt
  have := n.isLt
  rw [Word.y_val, encodeXYN_toNat]
  omega

@[simp] theorem encodeXYN_n0 (f : BitVec 4) (x y : RegIndex) (n : Fin 16) : Word.n0 (encodeXYN f x y n) = n := by
  apply Fin.ext
  have := x.isLt
  have := y.isLt
  have := n.isLt
  rw [Word.n0_val, encodeXYN_toNat]
  omega

/-! ### The masks of the opcode table, as arithmetic on the word (30_encoding R76) -/

theorem Word.and_F000 (w : Word) : (w &&& 0xF000#16).toNat = w.toNat / 4096 * 4096 := by
  rw [BitVec.toNat_and, show w.toNat / 4096 * 4096 = w.toNat >>> 12 <<< 12 by
    rw [Nat.shiftLeft_eq, Nat.shiftRight_eq_div_pow]]
  apply Nat.eq_of_testBit_eq
  intro i
  by_cases h : i < 16
  · interval_cases i <;> simp [Nat.testBit_shiftLeft, Nat.testBit_shiftRight] <;> exact fun _ => by decide
  · have := Nat.testBit_lt_two_pow (x := w.toNat) (i := i) (Nat.lt_of_lt_of_le w.isLt (Nat.pow_le_pow_right (by decide) (by omega)))
    have h2 : i - 12 + 12 = i := by omega
    simp [Nat.testBit_shiftLeft, Nat.testBit_shiftRight, this, Nat.add_comm 12, h2]

theorem Word.and_000F (w : Word) : (w &&& 0x000F#16).toNat = w.toNat % 16 := by
  rw [BitVec.toNat_and]; exact Nat.and_two_pow_sub_one_eq_mod w.toNat 4

theorem Word.and_00FF (w : Word) : (w &&& 0x00FF#16).toNat = w.toNat % 256 := by
  rw [BitVec.toNat_and]; exact Nat.and_two_pow_sub_one_eq_mod w.toNat 8

theorem Word.and_F00F (w : Word) : (w &&& 0xF00F#16).toNat = w.toNat / 4096 * 4096 + w.toNat % 16 := by
  have h : (w &&& 0xF00F#16) = (w &&& 0xF000#16) ||| (w &&& 0x000F#16) := by
    rw [← BitVec.and_or_distrib_left]; rfl
  rw [h, BitVec.toNat_or, and_F000, and_000F, show w.toNat / 4096 * 4096 = 2 ^ 4 * (w.toNat / 4096 * 256) by omega]
  exact (Nat.two_pow_add_eq_or_of_lt (i := 4) (Nat.mod_lt _ (by decide)) _).symm

theorem Word.and_F0FF (w : Word) : (w &&& 0xF0FF#16).toNat = w.toNat / 4096 * 4096 + w.toNat % 256 := by
  have h : (w &&& 0xF0FF#16) = (w &&& 0xF000#16) ||| (w &&& 0x00FF#16) := by
    rw [← BitVec.and_or_distrib_left]; rfl
  rw [h, BitVec.toNat_or, and_F000, and_00FF, show w.toNat / 4096 * 4096 = 2 ^ 8 * (w.toNat / 4096 * 16) by omega]
  exact (Nat.two_pow_add_eq_or_of_lt (i := 8) (Nat.mod_lt _ (by decide)) _).symm

theorem Word.and_FFFF (w : Word) : w &&& 0xFFFF#16 = w := BitVec.and_allOnes

end Sys2Proof
end

