-- ==== Sys2Proof/Laws/Display.lean ====
section
/-! SUPPORT. The laws of the framebuffer and of the drawing loop: what each pixel is after a row and after a sprite, and
that `collided` is the union over all affected pixels (44_display R166 to R168). -/

namespace Sys2Proof.Machine

@[simp] theorem Framebuffer.pixel_setPixel (fb : Framebuffer) (c c' : Fin 64) (r r' : Fin 32) (on : Bool) :
    (fb.setPixel c r on).pixel c' r' = if c' = c ∧ r' = r then on else fb.pixel c' r' := by
  unfold Framebuffer.setPixel Framebuffer.pixel
  by_cases hr : r' = r
  · subst hr
    by_cases hc : c' = c
    · subst hc; simp
    · have hv : ¬ c.val = c'.val := fun e => hc (Fin.ext e.symm)
      simp [hc, hv]
  · have hv : ¬ r.val = r'.val := fun e => hr (Fin.ext e.symm)
    simp [hr, hv]

@[simp] theorem Framebuffer.pixel_clear (c : Fin 64) (r : Fin 32) : Framebuffer.clear.pixel c r = false := by
  simp [Framebuffer.pixel, Framebuffer.clear]

/-- Two framebuffers with the same pixels are the same. -/
theorem Framebuffer.ext_pixel {fb fb' : Framebuffer} (h : ∀ c r, fb.pixel c r = fb'.pixel c r) : fb = fb' := by
  apply Vector.ext
  intro r hr
  apply Vector.ext
  intro c hc
  exact h ⟨c, hc⟩ ⟨r, hr⟩

/-- Sprite column `c` of byte `b`, drawn from horizontal position `vx`, lands on screen column `col`, for some `c` from
`lo` on. -/
def litFrom (b : Byte) (vx lo : Nat) (col : Fin 64) : Prop :=
  ∃ c, lo ≤ c ∧ c < 8 ∧ spriteBit b c = true ∧ screenCol (vx + c) = col

/-- A row of the loop: its lit pixels are inverted, all others kept, and a collision is a lit pixel that was on. -/
theorem drawRowFrom_spec (b : Byte) (vx : Nat) (row : Fin 32) (n : Nat) (hn : n ≤ 8) (d : Drawing) :
    (∀ col r, (r = row ∧ litFrom b vx (8 - n) col → (drawRowFrom b vx row n d).1.pixel col r = !d.1.pixel col r) ∧
      (¬ (r = row ∧ litFrom b vx (8 - n) col) → (drawRowFrom b vx row n d).1.pixel col r = d.1.pixel col r)) ∧
    ((drawRowFrom b vx row n d).2 = true ↔
      d.2 = true ∨ ∃ col, litFrom b vx (8 - n) col ∧ d.1.pixel col row = true) := by
  induction n generalizing d with
  | zero =>
    have hno : ∀ col, ¬ litFrom b vx (8 - 0) col := by
      rintro col ⟨c, h1, h2, _⟩
      omega
    simp [drawRowFrom, hno]
  | succ n ih =>
    rw [show 8 - (n + 1) = 7 - n by omega]
    have hsplit : ∀ col, litFrom b vx (7 - n) col ↔
        (spriteBit b (7 - n) = true ∧ screenCol (vx + (7 - n)) = col) ∨ litFrom b vx (8 - n) col := by
      intro col
      constructor
      · rintro ⟨c, h1, h2, h3, h4⟩
        by_cases hc : c = 7 - n
        · subst hc; exact .inl ⟨h3, h4⟩
        · exact .inr ⟨c, by omega, h2, h3, h4⟩
      · rintro (⟨h3, h4⟩ | ⟨c, h1, h2, h3, h4⟩)
        · exact ⟨_, Nat.le_refl _, by omega, h3, h4⟩
        · exact ⟨c, by omega, h2, h3, h4⟩
    -- the column of this pixel is none of the later ones: a sprite row is 8 wide and the screen 64
    have hdist : ∀ col, litFrom b vx (8 - n) col → screenCol (vx + (7 - n)) ≠ col := by
      rintro col ⟨c, h1, h2, h3, h4⟩ he
      have := congrArg Fin.val (h4.trans he.symm)
      simp only [screenCol] at this
      omega
    by_cases hb : spriteBit b (7 - n) = true
    · have hstep : drawRowFrom b vx row (n + 1) d =
          drawRowFrom b vx row n (xorPixel (screenCol (vx + (7 - n))) row d) := by
        simp [drawRowFrom, hb]
      obtain ⟨ihp, ihc⟩ := ih (by omega) (xorPixel (screenCol (vx + (7 - n))) row d)
      rw [hstep]
      constructor
      · intro col r
        rw [hsplit]
        constructor
        · rintro ⟨rfl, ⟨-, rfl⟩ | hl⟩
          · rw [(ihp _ _).2 (fun h => hdist _ h.2 rfl)]
            simp [xorPixel]
          · rw [(ihp _ _).1 ⟨rfl, hl⟩]
            have := hdist col hl
            simp [xorPixel, Ne.symm this]
        · intro hno
          rw [(ihp _ _).2 (fun h => hno ⟨h.1, .inr h.2⟩)]
          have : ¬ (col = screenCol (vx + (7 - n)) ∧ r = row) := fun h => hno ⟨h.2, .inl ⟨hb, h.1.symm⟩⟩
          simp [xorPixel, this]
      · rw [ihc]
        simp only [xorPixel, Bool.or_eq_true, hsplit]
        constructor
        · rintro ((h | h) | ⟨col, hl, hp⟩)
          · exact .inl h
          · exact .inr ⟨_, .inl ⟨hb, rfl⟩, h⟩
          · have := hdist col hl
            rw [Framebuffer.pixel_setPixel, if_neg (fun h => this h.1.symm)] at hp
            exact .inr ⟨col, .inr hl, hp⟩
        · rintro (h | ⟨col, ⟨-, rfl⟩ | hl, hp⟩)
          · exact .inl (.inl h)
          · exact .inl (.inr hp)
          · have := hdist col hl
            refine .inr ⟨col, hl, ?_⟩
            rw [Framebuffer.pixel_setPixel, if_neg (fun h => this h.1.symm)]
            exact hp
    · have hstep : drawRowFrom b vx row (n + 1) d = drawRowFrom b vx row n d := by
        simp [drawRowFrom, hb]
      have hsame : ∀ col, litFrom b vx (7 - n) col ↔ litFrom b vx (8 - n) col := by
        intro col
        rw [hsplit]
        simp [hb]
      rw [hstep]
      simpa only [hsame] using ih (by omega) d

/-- Screen pixel (`col`, `row`) is under a set bit of the sprite `bytes` whose top-left pixel stands at (`vx`, `vy`). -/
def lit (vx vy : Nat) (bytes : List Byte) (col : Fin 64) (row : Fin 32) : Prop :=
  ∃ r, ∃ h : r < bytes.length, ∃ c, c < 8 ∧
    spriteBit bytes[r] c = true ∧ screenCol (vx + c) = col ∧ screenRow (vy + r) = row

/-- A sprite of at most 32 rows: its lit pixels are inverted, all others kept, and `collided` says whether a lit pixel was
on (44_display R166 to R168). -/
theorem drawRows_spec (vx vy : Nat) (bytes : List Byte) (hlen : bytes.length ≤ 32) (d : Drawing) :
    (∀ col r, (lit vx vy bytes col r → (drawRows vx vy bytes d).1.pixel col r = !d.1.pixel col r) ∧
      (¬ lit vx vy bytes col r → (drawRows vx vy bytes d).1.pixel col r = d.1.pixel col r)) ∧
    ((drawRows vx vy bytes d).2 = true ↔ d.2 = true ∨ ∃ col r, lit vx vy bytes col r ∧ d.1.pixel col r = true) := by
  induction bytes generalizing vy d with
  | nil =>
    have hno : ∀ col r, ¬ lit vx vy [] col r := by
      rintro col r ⟨k, hk, _⟩
      exact absurd hk (Nat.not_lt_zero k)
    simp [drawRows, hno]
  | cons b bs ih =>
    simp only [List.length_cons] at hlen
    have hsplit : ∀ col r, lit vx vy (b :: bs) col r ↔
        (r = screenRow vy ∧ litFrom b vx 0 col) ∨ lit vx (vy + 1) bs col r := by
      intro col r
      constructor
      · rintro ⟨k, hk, c, h1, h2, h3, h4⟩
        cases k with
        | zero => exact .inl ⟨h4.symm, c, Nat.zero_le c, h1, h2, h3⟩
        | succ k =>
          refine .inr ⟨k, by simpa using hk, c, h1, h2, h3, ?_⟩
          rw [← h4]; congr 1; omega
      · rintro (⟨rfl, c, -, h1, h2, h3⟩ | ⟨k, hk, c, h1, h2, h3, h4⟩)
        · exact ⟨0, by simp, c, h1, h2, h3, rfl⟩
        · refine ⟨k + 1, by simpa using hk, c, h1, h2, h3, ?_⟩
          rw [← h4]; congr 1; omega
    -- the screen row of this sprite row is none of the later ones
    have hdist : ∀ col r, lit vx (vy + 1) bs col r → r ≠ screenRow vy := by
      rintro col r ⟨k, hk, c, h1, h2, h3, h4⟩ he
      have := congrArg Fin.val (h4.trans he)
      simp only [screenRow] at this
      omega
    obtain ⟨hp, hc⟩ := drawRowFrom_spec b vx (screenRow vy) 8 (Nat.le_refl 8) d
    simp only [Nat.sub_self] at hp hc
    obtain ⟨ihp, ihc⟩ := ih (vy + 1) (by omega) (drawRowFrom b vx (screenRow vy) 8 d)
    constructor
    · intro col r
      rw [hsplit, drawRows]
      constructor
      · rintro (h | h)
        · rw [(ihp col r).2 (fun hl => hdist _ _ hl h.1), (hp col r).1 h]
        · rw [(ihp col r).1 h, (hp col r).2 (fun hl => hdist _ _ h hl.1)]
      · intro h
        rw [(ihp col r).2 (fun hl => h (.inr hl)), (hp col r).2 (fun hl => h (.inl hl))]
    · rw [drawRows, ihc, hc]
      constructor
      · rintro ((h | ⟨col, hl, ho⟩) | ⟨col, r, hl, ho⟩)
        · exact .inl h
        · exact .inr ⟨col, _, (hsplit _ _).mpr (.inl ⟨rfl, hl⟩), ho⟩
        · rw [(hp col r).2 (fun h => hdist _ _ hl h.1)] at ho
          exact .inr ⟨col, r, (hsplit _ _).mpr (.inr hl), ho⟩
      · rintro (h | ⟨col, r, hl, ho⟩)
        · exact .inl (.inl h)
        · rcases (hsplit _ _).mp hl with ⟨rfl, hl'⟩ | hl'
          · exact .inl (.inr ⟨col, hl', ho⟩)
          · refine .inr ⟨col, r, hl', ?_⟩
            rw [(hp col r).2 (fun h => hdist _ _ hl' h.1)]
            exact ho

end Sys2Proof.Machine
end

