-- ==== Sys2Proof/Laws/Memory.lean ====
section
/-! SUPPORT. The laws of memory: a read after a write, the canonical form kept by every operation, and two canonical
memories with the same bytes are the same list. -/

namespace Sys2Proof.Machine

@[simp] theorem Memory.read_nil (a : Nat) : Memory.read [] a = resetByte a := rfl

@[simp] theorem Memory.read_cons (b : Nat) (v : Byte) (rest : Memory) (a : Nat) :
    Memory.read ((b, v) :: rest) a = if b = a then v else Memory.read rest a := rfl

/-- A byte of a canonical memory below its lowest entry reads as at reset. -/
theorem Memory.read_of_wfFrom {lo : Nat} {m : Memory} (h : Memory.wfFrom lo m = true) {a : Nat} (ha : a < lo) :
    m.read a = resetByte a := by
  induction m generalizing lo with
  | nil => rfl
  | cons e rest ih =>
    obtain ⟨b, v⟩ := e
    simp only [Memory.wfFrom, Bool.and_eq_true, decide_eq_true_eq] at h
    have hb : b ≠ a := by omega
    simp [hb, ih h.2 (by omega)]

/-- The canonical form from a lower bound holds from every lower one. -/
theorem Memory.wfFrom_mono {lo lo' : Nat} {m : Memory} (h : Memory.wfFrom lo m = true) (hl : lo' ≤ lo) :
    Memory.wfFrom lo' m = true := by
  cases m with
  | nil => rfl
  | cons e rest =>
    obtain ⟨b, v⟩ := e
    simp only [Memory.wfFrom, Bool.and_eq_true, decide_eq_true_eq] at h ⊢
    exact ⟨⟨⟨by omega, h.1.1.2⟩, h.1.2⟩, h.2⟩

/-- `put` reads as the byte put there and the rest elsewhere. -/
theorem Memory.read_put {a : Nat} {v : Byte} {rest : Memory} (h : Memory.wfFrom (a + 1) rest = true) (b : Nat) :
    (Memory.put a v rest).read b = if b = a then v else rest.read b := by
  unfold Memory.put
  by_cases hv : v = resetByte a
  · by_cases hb : b = a
    · subst hb; simp [hv, Memory.read_of_wfFrom h (Nat.lt_succ_self b)]
    · simp [hv, hb]
  · simp [hv, eq_comm]

theorem Memory.put_wfFrom {lo a : Nat} {v : Byte} {rest : Memory} (hlo : lo ≤ a) (ha : a < Config.memSize)
    (h : Memory.wfFrom (a + 1) rest = true) : Memory.wfFrom lo (Memory.put a v rest) = true := by
  unfold Memory.put
  split
  · exact Memory.wfFrom_mono h (by omega)
  · simp [Memory.wfFrom, *]

theorem Memory.insert_wfFrom {lo a : Nat} {v : Byte} {m : Memory} (hlo : lo ≤ a) (ha : a < Config.memSize)
    (h : Memory.wfFrom lo m = true) : Memory.wfFrom lo (Memory.insert a v m) = true := by
  induction m generalizing lo with
  | nil => exact Memory.put_wfFrom hlo ha rfl
  | cons e rest ih =>
    obtain ⟨b, w⟩ := e
    simp only [Memory.wfFrom, Bool.and_eq_true, decide_eq_true_eq] at h
    unfold Memory.insert
    split
    · simp only [Memory.wfFrom, Bool.and_eq_true, decide_eq_true_eq]
      exact ⟨h.1, ih (by omega) h.2⟩
    · split
      · subst b; exact Memory.put_wfFrom hlo ha h.2
      · refine Memory.put_wfFrom hlo ha ?_
        simp only [Memory.wfFrom, Bool.and_eq_true, decide_eq_true_eq]
        exact ⟨⟨⟨by omega, h.1.1.2⟩, h.1.2⟩, h.2⟩

theorem Memory.read_insert {lo a : Nat} {v : Byte} {m : Memory} (h : Memory.wfFrom lo m = true) (b : Nat) :
    (Memory.insert a v m).read b = if b = a then v else m.read b := by
  induction m generalizing lo with
  | nil => exact Memory.read_put (rest := []) rfl b
  | cons e rest ih =>
    obtain ⟨c, w⟩ := e
    have h' := h
    simp only [Memory.wfFrom, Bool.and_eq_true, decide_eq_true_eq] at h
    unfold Memory.insert
    split
    · by_cases hb : c = b
      · have : b ≠ a := by omega
        simp [hb, this]
      · simp [hb, ih h.2]
    · split
      · subst c
        rw [Memory.read_put h.2]
        by_cases hb : b = a
        · simp [hb]
        · have hb' : ¬ a = b := fun e => hb e.symm
          simp [hb, hb']
      · rw [Memory.read_put (by
          simp only [Memory.wfFrom, Bool.and_eq_true, decide_eq_true_eq]
          exact ⟨⟨⟨by omega, h.1.1.2⟩, h.1.2⟩, h.2⟩)]

/-- A read after a write: the byte written at its own address, the old byte at every other one. -/
theorem Memory.read_write {m : Memory} (h : m.wf = true) {a : Nat} (ha : a < 4096) (v : Byte) (b : Nat) :
    (m.write a v).read b = if b = a then v else m.read b := by
  simp [Memory.write, ha, Memory.read_insert h]

/-- Every write keeps the canonical form. -/
theorem Memory.write_wf {m : Memory} (h : m.wf = true) (a : Nat) (v : Byte) : (m.write a v).wf = true := by
  unfold Memory.write
  split
  · exact Memory.insert_wfFrom (Nat.zero_le a) (by assumption) h
  · exact h

/-- Writing consecutive bytes keeps the canonical form. -/
theorem Memory.writeBytes_wf {m : Memory} (h : m.wf = true) (a : Nat) (vs : List Byte) :
    (m.writeBytes a vs).wf = true := by
  induction vs generalizing m a with
  | nil => exact h
  | cons v vs ih => exact ih (Memory.write_wf h a v) (a + 1)

/-- What reads after consecutive bytes are written inside memory. -/
theorem Memory.read_writeBytes {m : Memory} (h : m.wf = true) {a : Nat} {vs : List Byte}
    (ha : a + vs.length ≤ 4096) (b : Nat) :
    (m.writeBytes a vs).read b = if h : a ≤ b ∧ b < a + vs.length then vs[b - a]'(by omega) else m.read b := by
  induction vs generalizing m a with
  | nil =>
    simp [Memory.writeBytes]
  | cons v vs ih =>
    simp only [List.length_cons] at ha
    rw [Memory.writeBytes, ih (Memory.write_wf h a v) (by omega), Memory.read_write h (by omega)]
    by_cases hb : b = a
    · subst hb
      simp
    · by_cases hin : a + 1 ≤ b ∧ b < a + 1 + vs.length
      · have h2 : a ≤ b ∧ b < a + (v :: vs).length := by simp; omega
        rw [dif_pos hin, dif_pos h2, List.getElem_cons]
        have h3 : ¬ b - a = 0 := by omega
        simp only [dif_neg h3]
        congr 1
      · have h2 : ¬ (a ≤ b ∧ b < a + (v :: vs).length) := by simp; omega
        rw [dif_neg hin, dif_neg h2, if_neg hb]

/-- An insertion leaves every other address alone, whatever form the memory has. -/
theorem Memory.read_insert_of_ne {a b : Nat} (h : b ≠ a) (v : Byte) (m : Memory) :
    (Memory.insert a v m).read b = m.read b := by
  have put : ∀ rest : Memory, (Memory.put a v rest).read b = rest.read b := fun rest => by
    unfold Memory.put
    split
    · rfl
    · exact if_neg h.symm
  induction m with
  | nil => exact put []
  | cons cell rest ih =>
    obtain ⟨c, w⟩ := cell
    simp only [Memory.insert]
    split
    · simp [ih]
    · split
      · rename_i hc
        rw [put, Memory.read_cons, if_neg (hc.trans_ne h.symm)]
      · exact put _

/-- A write leaves every other address alone, whatever form the memory has. -/
theorem Memory.read_write_of_ne {a b : Nat} (h : b ≠ a) (m : Memory) (v : Byte) :
    (m.write a v).read b = m.read b := by
  unfold Memory.write
  split
  · exact Memory.read_insert_of_ne h v m
  · rfl

/-- Bytes written from `a` up leave every lower address alone, whatever form the memory has and however many they are. -/
theorem Memory.read_writeBytes_of_lt {a b : Nat} (h : b < a) (m : Memory) (vs : List Byte) :
    (m.writeBytes a vs).read b = m.read b := by
  induction vs generalizing m a with
  | nil => rfl
  | cons v vs ih =>
    rw [Memory.writeBytes, ih (by omega), Memory.read_write_of_ne (by omega)]

/-- The bytes read from consecutive addresses. -/
@[simp] theorem Memory.readBytes_length (m : Memory) (a n : Nat) : (m.readBytes a n).length = n := by
  induction n generalizing a with
  | zero => rfl
  | succ n ih => simp [Memory.readBytes, ih]

theorem Memory.getElem_readBytes (m : Memory) (a n k : Nat) (hk : k < (m.readBytes a n).length) :
    (m.readBytes a n)[k] = m.read (a + k) := by
  induction n generalizing a k with
  | zero => simp [Memory.readBytes] at hk
  | succ n ih =>
    cases k with
    | zero => rfl
    | succ k =>
      simp only [Memory.readBytes, List.getElem_cons_succ]
      rw [ih]
      congr 1
      omega

/-- Two canonical memories that read alike everywhere are the same list. -/
theorem Memory.eq_of_read {lo : Nat} {m m' : Memory} (h : Memory.wfFrom lo m = true) (h' : Memory.wfFrom lo m' = true)
    (hr : ∀ a, m.read a = m'.read a) : m = m' := by
  induction m generalizing lo m' with
  | nil =>
    cases m' with
    | nil => rfl
    | cons e rest =>
      obtain ⟨b, v⟩ := e
      simp only [Memory.wfFrom, Bool.and_eq_true, decide_eq_true_eq] at h'
      have := hr b
      simp at this
      exact absurd this.symm h'.1.2
  | cons e rest ih =>
    obtain ⟨b, v⟩ := e
    have hh := h
    simp only [Memory.wfFrom, Bool.and_eq_true, decide_eq_true_eq] at h
    cases m' with
    | nil =>
      have := hr b
      simp at this
      exact absurd this h.1.2
    | cons e' rest' =>
      obtain ⟨c, w⟩ := e'
      have hh' := h'
      simp only [Memory.wfFrom, Bool.and_eq_true, decide_eq_true_eq] at h'
      have hbc : b = c := by
        rcases Nat.lt_trichotomy b c with hlt | he | hlt
        · have hb := hr b
          have hcb : ¬ c = b := by omega
          simp only [Memory.read_cons, if_true, if_neg hcb] at hb
          rw [Memory.read_of_wfFrom h'.2 (by omega)] at hb
          exact absurd hb h.1.2
        · exact he
        · have hb := hr c
          have hcb : ¬ b = c := by omega
          simp only [Memory.read_cons, if_true, if_neg hcb] at hb
          rw [Memory.read_of_wfFrom h.2 (by omega)] at hb
          exact absurd hb.symm h'.1.2
      subst hbc
      have hv : v = w := by simpa using hr b
      subst hv
      refine congrArg _ (ih h.2 h'.2 fun a => ?_)
      by_cases ha : b = a
      · subst ha
        rw [Memory.read_of_wfFrom h.2 (by omega), Memory.read_of_wfFrom h'.2 (by omega)]
      · simpa [ha] using hr a

end Sys2Proof.Machine
end

