-- ==== Sys2Proof/Laws/State.lean ====
section
/-! SUPPORT. One lemma per field per update of State, each true by rfl, so that no later proof unfolds a record update; then
the laws of the register accessors. -/

namespace Sys2Proof.Machine

@[simp] theorem State.setReg_mem (s : State) (r : RegIndex) (v : Byte) : (s.setReg r v).mem = s.mem := rfl
@[simp] theorem State.setReg_x (s : State) (r : RegIndex) (v : Byte) : (s.setReg r v).x = s.x.set r.val v := rfl
@[simp] theorem State.setReg_idx (s : State) (r : RegIndex) (v : Byte) : (s.setReg r v).idx = s.idx := rfl
@[simp] theorem State.setReg_pc (s : State) (r : RegIndex) (v : Byte) : (s.setReg r v).pc = s.pc := rfl
@[simp] theorem State.setReg_stack (s : State) (r : RegIndex) (v : Byte) : (s.setReg r v).stack = s.stack := rfl
@[simp] theorem State.setReg_sp (s : State) (r : RegIndex) (v : Byte) : (s.setReg r v).sp = s.sp := rfl
@[simp] theorem State.setReg_fb (s : State) (r : RegIndex) (v : Byte) : (s.setReg r v).fb = s.fb := rfl
@[simp] theorem State.setReg_key (s : State) (r : RegIndex) (v : Byte) : (s.setReg r v).key = s.key := rfl
@[simp] theorem State.setReg_dt (s : State) (r : RegIndex) (v : Byte) : (s.setReg r v).dt = s.dt := rfl
@[simp] theorem State.setReg_st (s : State) (r : RegIndex) (v : Byte) : (s.setReg r v).st = s.st := rfl
@[simp] theorem State.setReg_draws (s : State) (r : RegIndex) (v : Byte) : (s.setReg r v).draws = s.draws := rfl

@[simp] theorem State.setRegs_mem (s : State) (v : Vector Byte 16) : (s.setRegs v).mem = s.mem := rfl
@[simp] theorem State.setRegs_x (s : State) (v : Vector Byte 16) : (s.setRegs v).x = v := rfl
@[simp] theorem State.setRegs_idx (s : State) (v : Vector Byte 16) : (s.setRegs v).idx = s.idx := rfl
@[simp] theorem State.setRegs_pc (s : State) (v : Vector Byte 16) : (s.setRegs v).pc = s.pc := rfl
@[simp] theorem State.setRegs_stack (s : State) (v : Vector Byte 16) : (s.setRegs v).stack = s.stack := rfl
@[simp] theorem State.setRegs_sp (s : State) (v : Vector Byte 16) : (s.setRegs v).sp = s.sp := rfl
@[simp] theorem State.setRegs_fb (s : State) (v : Vector Byte 16) : (s.setRegs v).fb = s.fb := rfl
@[simp] theorem State.setRegs_key (s : State) (v : Vector Byte 16) : (s.setRegs v).key = s.key := rfl
@[simp] theorem State.setRegs_dt (s : State) (v : Vector Byte 16) : (s.setRegs v).dt = s.dt := rfl
@[simp] theorem State.setRegs_st (s : State) (v : Vector Byte 16) : (s.setRegs v).st = s.st := rfl
@[simp] theorem State.setRegs_draws (s : State) (v : Vector Byte 16) : (s.setRegs v).draws = s.draws := rfl

@[simp] theorem State.setIdx_mem (s : State) (v : Word) : (s.setIdx v).mem = s.mem := rfl
@[simp] theorem State.setIdx_x (s : State) (v : Word) : (s.setIdx v).x = s.x := rfl
@[simp] theorem State.setIdx_idx (s : State) (v : Word) : (s.setIdx v).idx = v := rfl
@[simp] theorem State.setIdx_pc (s : State) (v : Word) : (s.setIdx v).pc = s.pc := rfl
@[simp] theorem State.setIdx_stack (s : State) (v : Word) : (s.setIdx v).stack = s.stack := rfl
@[simp] theorem State.setIdx_sp (s : State) (v : Word) : (s.setIdx v).sp = s.sp := rfl
@[simp] theorem State.setIdx_fb (s : State) (v : Word) : (s.setIdx v).fb = s.fb := rfl
@[simp] theorem State.setIdx_key (s : State) (v : Word) : (s.setIdx v).key = s.key := rfl
@[simp] theorem State.setIdx_dt (s : State) (v : Word) : (s.setIdx v).dt = s.dt := rfl
@[simp] theorem State.setIdx_st (s : State) (v : Word) : (s.setIdx v).st = s.st := rfl
@[simp] theorem State.setIdx_draws (s : State) (v : Word) : (s.setIdx v).draws = s.draws := rfl

@[simp] theorem State.setPc_mem (s : State) (v : Word) : (s.setPc v).mem = s.mem := rfl
@[simp] theorem State.setPc_x (s : State) (v : Word) : (s.setPc v).x = s.x := rfl
@[simp] theorem State.setPc_idx (s : State) (v : Word) : (s.setPc v).idx = s.idx := rfl
@[simp] theorem State.setPc_pc (s : State) (v : Word) : (s.setPc v).pc = v := rfl
@[simp] theorem State.setPc_stack (s : State) (v : Word) : (s.setPc v).stack = s.stack := rfl
@[simp] theorem State.setPc_sp (s : State) (v : Word) : (s.setPc v).sp = s.sp := rfl
@[simp] theorem State.setPc_fb (s : State) (v : Word) : (s.setPc v).fb = s.fb := rfl
@[simp] theorem State.setPc_key (s : State) (v : Word) : (s.setPc v).key = s.key := rfl
@[simp] theorem State.setPc_dt (s : State) (v : Word) : (s.setPc v).dt = s.dt := rfl
@[simp] theorem State.setPc_st (s : State) (v : Word) : (s.setPc v).st = s.st := rfl
@[simp] theorem State.setPc_draws (s : State) (v : Word) : (s.setPc v).draws = s.draws := rfl

@[simp] theorem State.setMem_mem (s : State) (v : Memory) : (s.setMem v).mem = v := rfl
@[simp] theorem State.setMem_x (s : State) (v : Memory) : (s.setMem v).x = s.x := rfl
@[simp] theorem State.setMem_idx (s : State) (v : Memory) : (s.setMem v).idx = s.idx := rfl
@[simp] theorem State.setMem_pc (s : State) (v : Memory) : (s.setMem v).pc = s.pc := rfl
@[simp] theorem State.setMem_stack (s : State) (v : Memory) : (s.setMem v).stack = s.stack := rfl
@[simp] theorem State.setMem_sp (s : State) (v : Memory) : (s.setMem v).sp = s.sp := rfl
@[simp] theorem State.setMem_fb (s : State) (v : Memory) : (s.setMem v).fb = s.fb := rfl
@[simp] theorem State.setMem_key (s : State) (v : Memory) : (s.setMem v).key = s.key := rfl
@[simp] theorem State.setMem_dt (s : State) (v : Memory) : (s.setMem v).dt = s.dt := rfl
@[simp] theorem State.setMem_st (s : State) (v : Memory) : (s.setMem v).st = s.st := rfl
@[simp] theorem State.setMem_draws (s : State) (v : Memory) : (s.setMem v).draws = s.draws := rfl

@[simp] theorem State.setFb_mem (s : State) (v : Framebuffer) : (s.setFb v).mem = s.mem := rfl
@[simp] theorem State.setFb_x (s : State) (v : Framebuffer) : (s.setFb v).x = s.x := rfl
@[simp] theorem State.setFb_idx (s : State) (v : Framebuffer) : (s.setFb v).idx = s.idx := rfl
@[simp] theorem State.setFb_pc (s : State) (v : Framebuffer) : (s.setFb v).pc = s.pc := rfl
@[simp] theorem State.setFb_stack (s : State) (v : Framebuffer) : (s.setFb v).stack = s.stack := rfl
@[simp] theorem State.setFb_sp (s : State) (v : Framebuffer) : (s.setFb v).sp = s.sp := rfl
@[simp] theorem State.setFb_fb (s : State) (v : Framebuffer) : (s.setFb v).fb = v := rfl
@[simp] theorem State.setFb_key (s : State) (v : Framebuffer) : (s.setFb v).key = s.key := rfl
@[simp] theorem State.setFb_dt (s : State) (v : Framebuffer) : (s.setFb v).dt = s.dt := rfl
@[simp] theorem State.setFb_st (s : State) (v : Framebuffer) : (s.setFb v).st = s.st := rfl
@[simp] theorem State.setFb_draws (s : State) (v : Framebuffer) : (s.setFb v).draws = s.draws := rfl

@[simp] theorem State.setDt_mem (s : State) (v : Byte) : (s.setDt v).mem = s.mem := rfl
@[simp] theorem State.setDt_x (s : State) (v : Byte) : (s.setDt v).x = s.x := rfl
@[simp] theorem State.setDt_idx (s : State) (v : Byte) : (s.setDt v).idx = s.idx := rfl
@[simp] theorem State.setDt_pc (s : State) (v : Byte) : (s.setDt v).pc = s.pc := rfl
@[simp] theorem State.setDt_stack (s : State) (v : Byte) : (s.setDt v).stack = s.stack := rfl
@[simp] theorem State.setDt_sp (s : State) (v : Byte) : (s.setDt v).sp = s.sp := rfl
@[simp] theorem State.setDt_fb (s : State) (v : Byte) : (s.setDt v).fb = s.fb := rfl
@[simp] theorem State.setDt_key (s : State) (v : Byte) : (s.setDt v).key = s.key := rfl
@[simp] theorem State.setDt_dt (s : State) (v : Byte) : (s.setDt v).dt = v := rfl
@[simp] theorem State.setDt_st (s : State) (v : Byte) : (s.setDt v).st = s.st := rfl
@[simp] theorem State.setDt_draws (s : State) (v : Byte) : (s.setDt v).draws = s.draws := rfl

@[simp] theorem State.setSt_mem (s : State) (v : Byte) : (s.setSt v).mem = s.mem := rfl
@[simp] theorem State.setSt_x (s : State) (v : Byte) : (s.setSt v).x = s.x := rfl
@[simp] theorem State.setSt_idx (s : State) (v : Byte) : (s.setSt v).idx = s.idx := rfl
@[simp] theorem State.setSt_pc (s : State) (v : Byte) : (s.setSt v).pc = s.pc := rfl
@[simp] theorem State.setSt_stack (s : State) (v : Byte) : (s.setSt v).stack = s.stack := rfl
@[simp] theorem State.setSt_sp (s : State) (v : Byte) : (s.setSt v).sp = s.sp := rfl
@[simp] theorem State.setSt_fb (s : State) (v : Byte) : (s.setSt v).fb = s.fb := rfl
@[simp] theorem State.setSt_key (s : State) (v : Byte) : (s.setSt v).key = s.key := rfl
@[simp] theorem State.setSt_dt (s : State) (v : Byte) : (s.setSt v).dt = s.dt := rfl
@[simp] theorem State.setSt_st (s : State) (v : Byte) : (s.setSt v).st = v := rfl
@[simp] theorem State.setSt_draws (s : State) (v : Byte) : (s.setSt v).draws = s.draws := rfl

@[simp] theorem State.setKeyFlag_mem (s : State) (k : Fin 16) (v : Bool) : (s.setKeyFlag k v).mem = s.mem := rfl
@[simp] theorem State.setKeyFlag_x (s : State) (k : Fin 16) (v : Bool) : (s.setKeyFlag k v).x = s.x := rfl
@[simp] theorem State.setKeyFlag_idx (s : State) (k : Fin 16) (v : Bool) : (s.setKeyFlag k v).idx = s.idx := rfl
@[simp] theorem State.setKeyFlag_pc (s : State) (k : Fin 16) (v : Bool) : (s.setKeyFlag k v).pc = s.pc := rfl
@[simp] theorem State.setKeyFlag_stack (s : State) (k : Fin 16) (v : Bool) : (s.setKeyFlag k v).stack = s.stack := rfl
@[simp] theorem State.setKeyFlag_sp (s : State) (k : Fin 16) (v : Bool) : (s.setKeyFlag k v).sp = s.sp := rfl
@[simp] theorem State.setKeyFlag_fb (s : State) (k : Fin 16) (v : Bool) : (s.setKeyFlag k v).fb = s.fb := rfl
@[simp] theorem State.setKeyFlag_key (s : State) (k : Fin 16) (v : Bool) : (s.setKeyFlag k v).key = s.key.set k.val v := rfl
@[simp] theorem State.setKeyFlag_dt (s : State) (k : Fin 16) (v : Bool) : (s.setKeyFlag k v).dt = s.dt := rfl
@[simp] theorem State.setKeyFlag_st (s : State) (k : Fin 16) (v : Bool) : (s.setKeyFlag k v).st = s.st := rfl
@[simp] theorem State.setKeyFlag_draws (s : State) (k : Fin 16) (v : Bool) : (s.setKeyFlag k v).draws = s.draws := rfl

@[simp] theorem State.countDraw_mem (s : State) : (s.countDraw).mem = s.mem := rfl
@[simp] theorem State.countDraw_x (s : State) : (s.countDraw).x = s.x := rfl
@[simp] theorem State.countDraw_idx (s : State) : (s.countDraw).idx = s.idx := rfl
@[simp] theorem State.countDraw_pc (s : State) : (s.countDraw).pc = s.pc := rfl
@[simp] theorem State.countDraw_stack (s : State) : (s.countDraw).stack = s.stack := rfl
@[simp] theorem State.countDraw_sp (s : State) : (s.countDraw).sp = s.sp := rfl
@[simp] theorem State.countDraw_fb (s : State) : (s.countDraw).fb = s.fb := rfl
@[simp] theorem State.countDraw_key (s : State) : (s.countDraw).key = s.key := rfl
@[simp] theorem State.countDraw_dt (s : State) : (s.countDraw).dt = s.dt := rfl
@[simp] theorem State.countDraw_st (s : State) : (s.countDraw).st = s.st := rfl
@[simp] theorem State.countDraw_draws (s : State) : (s.countDraw).draws = s.draws + 1 := rfl

@[simp] theorem State.setFlag_mem (s : State) (b : Bool) : (s.setFlag b).mem = s.mem := rfl
@[simp] theorem State.setFlag_x (s : State) (b : Bool) : (s.setFlag b).x = s.x.set 15 (flagByte b) := rfl
@[simp] theorem State.setFlag_idx (s : State) (b : Bool) : (s.setFlag b).idx = s.idx := rfl
@[simp] theorem State.setFlag_pc (s : State) (b : Bool) : (s.setFlag b).pc = s.pc := rfl
@[simp] theorem State.setFlag_stack (s : State) (b : Bool) : (s.setFlag b).stack = s.stack := rfl
@[simp] theorem State.setFlag_sp (s : State) (b : Bool) : (s.setFlag b).sp = s.sp := rfl
@[simp] theorem State.setFlag_fb (s : State) (b : Bool) : (s.setFlag b).fb = s.fb := rfl
@[simp] theorem State.setFlag_key (s : State) (b : Bool) : (s.setFlag b).key = s.key := rfl
@[simp] theorem State.setFlag_dt (s : State) (b : Bool) : (s.setFlag b).dt = s.dt := rfl
@[simp] theorem State.setFlag_st (s : State) (b : Bool) : (s.setFlag b).st = s.st := rfl
@[simp] theorem State.setFlag_draws (s : State) (b : Bool) : (s.setFlag b).draws = s.draws := rfl

@[simp] theorem State.advance_mem (s : State) : s.advance.mem = s.mem := rfl
@[simp] theorem State.advance_x (s : State) : s.advance.x = s.x := rfl
@[simp] theorem State.advance_idx (s : State) : s.advance.idx = s.idx := rfl
@[simp] theorem State.advance_pc (s : State) : s.advance.pc = s.pc + 2 := rfl
@[simp] theorem State.advance_stack (s : State) : s.advance.stack = s.stack := rfl
@[simp] theorem State.advance_sp (s : State) : s.advance.sp = s.sp := rfl
@[simp] theorem State.advance_fb (s : State) : s.advance.fb = s.fb := rfl
@[simp] theorem State.advance_key (s : State) : s.advance.key = s.key := rfl
@[simp] theorem State.advance_dt (s : State) : s.advance.dt = s.dt := rfl
@[simp] theorem State.advance_st (s : State) : s.advance.st = s.st := rfl
@[simp] theorem State.advance_draws (s : State) : s.advance.draws = s.draws := rfl

@[simp] theorem State.skipIf_mem (s : State) (c : Bool) : (s.skipIf c).mem = s.mem := by
  cases c <;> rfl
@[simp] theorem State.skipIf_x (s : State) (c : Bool) : (s.skipIf c).x = s.x := by
  cases c <;> rfl
@[simp] theorem State.skipIf_idx (s : State) (c : Bool) : (s.skipIf c).idx = s.idx := by
  cases c <;> rfl
@[simp] theorem State.skipIf_pc (s : State) (c : Bool) : (s.skipIf c).pc = if c then s.pc + 2 else s.pc := by
  cases c <;> rfl
@[simp] theorem State.skipIf_stack (s : State) (c : Bool) : (s.skipIf c).stack = s.stack := by
  cases c <;> rfl
@[simp] theorem State.skipIf_sp (s : State) (c : Bool) : (s.skipIf c).sp = s.sp := by
  cases c <;> rfl
@[simp] theorem State.skipIf_fb (s : State) (c : Bool) : (s.skipIf c).fb = s.fb := by
  cases c <;> rfl
@[simp] theorem State.skipIf_key (s : State) (c : Bool) : (s.skipIf c).key = s.key := by
  cases c <;> rfl
@[simp] theorem State.skipIf_dt (s : State) (c : Bool) : (s.skipIf c).dt = s.dt := by
  cases c <;> rfl
@[simp] theorem State.skipIf_st (s : State) (c : Bool) : (s.skipIf c).st = s.st := by
  cases c <;> rfl
@[simp] theorem State.skipIf_draws (s : State) (c : Bool) : (s.skipIf c).draws = s.draws := by
  cases c <;> rfl

/-! ### Registers -/

/-- A register read after a register write. -/
@[simp] theorem State.setReg_reg (s : State) (x r : RegIndex) (v : Byte) :
    (s.setReg x v).reg r = if r = x then v else s.reg r := by
  by_cases h : r = x
  · subst h; simp [State.reg, State.setReg]
  · have : x.val ≠ r.val := fun e => h (Fin.ext e.symm)
    simp [State.reg, State.setReg, h, this]

/-- A register read after the flag is written. -/
@[simp] theorem State.setFlag_reg (s : State) (r : RegIndex) (b : Bool) :
    (s.setFlag b).reg r = if r = 15 then flagByte b else s.reg r := by
  simp [State.setFlag, Config.flagReg]

/-- A register is read from the register file alone. -/
theorem State.reg_eq_of_x {s t : State} (h : t.x = s.x) (r : RegIndex) : t.reg r = s.reg r := by
  simp [State.reg, h]

@[simp] theorem State.setIdx_reg (s : State) (v : Word) (r : RegIndex) : (s.setIdx v).reg r = s.reg r := rfl
@[simp] theorem State.setPc_reg (s : State) (v : Word) (r : RegIndex) : (s.setPc v).reg r = s.reg r := rfl
@[simp] theorem State.setMem_reg (s : State) (v : Memory) (r : RegIndex) : (s.setMem v).reg r = s.reg r := rfl
@[simp] theorem State.setFb_reg (s : State) (v : Framebuffer) (r : RegIndex) : (s.setFb v).reg r = s.reg r := rfl
@[simp] theorem State.setDt_reg (s : State) (v : Byte) (r : RegIndex) : (s.setDt v).reg r = s.reg r := rfl
@[simp] theorem State.setSt_reg (s : State) (v : Byte) (r : RegIndex) : (s.setSt v).reg r = s.reg r := rfl
@[simp] theorem State.setKeyFlag_reg (s : State) (k : Fin 16) (v : Bool) (r : RegIndex) : (s.setKeyFlag k v).reg r = s.reg r := rfl
@[simp] theorem State.countDraw_reg (s : State) (r : RegIndex) : (s.countDraw).reg r = s.reg r := rfl
@[simp] theorem State.advance_reg (s : State) (r : RegIndex) : (s.advance).reg r = s.reg r := rfl
@[simp] theorem State.skipIf_reg (s : State) (c : Bool) (r : RegIndex) : (s.skipIf c).reg r = s.reg r :=
  State.reg_eq_of_x (State.skipIf_x s c) r
@[simp] theorem State.setRegs_reg (s : State) (v : Vector Byte 16) (r : RegIndex) : (s.setRegs v).reg r = v[r.val] := rfl

/-- `pc0` inverts the advance of the fetch phase. -/
@[simp] theorem State.advance_pc0 (s : State) : s.advance.pc0 = s.pc := by
  simp [State.pc0, State.advance]

/-! ### The stack -/

/-- PUSH with a free entry, and only then, gives a state; what it holds. -/
theorem State.push?_eq_some {s t : State} {v : Word} (h : s.push? v = some t) :
    s.sp.val < 16 ∧ t.sp.val = s.sp.val + 1 ∧
    (∀ k : Fin 16, t.stack[k.val] = if k.val = s.sp.val then v else s.stack[k.val]) ∧
    t.mem = s.mem ∧ t.x = s.x ∧ t.idx = s.idx ∧ t.pc = s.pc ∧ t.fb = s.fb ∧ t.key = s.key ∧
    t.dt = s.dt ∧ t.st = s.st ∧ t.draws = s.draws := by
  unfold State.push? at h
  split at h
  · cases h
    refine ⟨by assumption, rfl, fun k => ?_, rfl, rfl, rfl, rfl, rfl, rfl, rfl, rfl, rfl⟩
    simp [Vector.getElem_set, eq_comm]
  · cases h

/-- A full stack takes no push. -/
theorem State.push?_eq_none {s : State} {v : Word} : s.push? v = none ↔ s.sp.val = 16 := by
  unfold State.push?
  split <;> simp <;> omega

/-- POP with a valid entry, and only then, gives the entry and a state; what it holds. -/
theorem State.pop?_eq_some {s t : State} {v : Word} (h : s.pop? = some (v, t)) :
    ∃ k : Fin 16, s.sp.val = k.val + 1 ∧ t.sp.val = k.val ∧ v = s.stack[k.val] ∧ t.stack = s.stack ∧
    t.mem = s.mem ∧ t.x = s.x ∧ t.idx = s.idx ∧ t.pc = s.pc ∧ t.fb = s.fb ∧ t.key = s.key ∧
    t.dt = s.dt ∧ t.st = s.st ∧ t.draws = s.draws := by
  unfold State.pop? at h
  split at h
  · cases h
    exact ⟨⟨s.sp.val - 1, by omega⟩, by simp; omega, rfl, rfl, rfl, rfl, rfl, rfl, rfl, rfl, rfl, rfl, rfl, rfl⟩
  · cases h

/-- An empty stack gives no entry. -/
theorem State.pop?_eq_none {s : State} : s.pop? = none ↔ s.sp.val = 0 := by
  unfold State.pop?
  split <;> simp <;> omega

end Sys2Proof.Machine
end

