-- ==== Sys2Proof/Laws/Ops.lean ====
section
/-! SUPPORT. What each shared operation can do, once: the access checks, the stores, the loads, and the two operations
through the index register. -/

namespace Sys2Proof.Machine

/-! ### Access checks -/

@[simp] theorem readCheck_of_lt {k : AccessKind} {a : Nat} (h : a < 4096) : readCheck k a = none := by
  simp [readCheck]; omega

@[simp] theorem readCheck_of_le {k : AccessKind} {a : Nat} (h : 4096 ≤ a) : readCheck k a = some k := by
  simp [readCheck]; omega

/-- A range of reads is inside memory exactly when none fails. -/
theorem firstFailing_read_eq_none {k : AccessKind} {a n : Nat} :
    firstFailing (readCheck k) a n = none ↔ n = 0 ∨ a + n ≤ 4096 := by
  induction n generalizing a with
  | zero => simp [firstFailing]
  | succ n ih =>
    by_cases h : 4096 ≤ a
    · simp [firstFailing, h]
      omega
    · simp only [firstFailing, readCheck_of_lt (Nat.not_le.mp h), ih]
      omega

/-- The first read that fails is the lowest address of the range that is 4096 or more. -/
theorem firstFailing_read_eq_some {k k' : AccessKind} {a n b : Nat}
    (h : firstFailing (readCheck k) a n = some (k', b)) : k' = k ∧ b = max a 4096 ∧ a ≤ b ∧ b < a + n := by
  induction n generalizing a with
  | zero => simp [firstFailing] at h
  | succ n ih =>
    by_cases ha : 4096 ≤ a
    · simp [firstFailing, ha] at h
      obtain ⟨rfl, rfl⟩ := h
      exact ⟨rfl, by omega, by omega, by omega⟩
    · simp only [firstFailing, readCheck_of_lt (Nat.not_le.mp ha)] at h
      obtain ⟨h1, h2, h3, h4⟩ := ih h
      exact ⟨h1, by omega, by omega, by omega⟩

/-- A range of writes passes its checks exactly when it is inside memory and, under the policy `fault`, above the font. -/
theorem firstFailing_write_eq_none {p : FontWritePolicy} {a n : Nat} :
    firstFailing (writeCheck p) a n = none ↔ n = 0 ∨ (a + n ≤ 4096 ∧ (p = .fault → 80 ≤ a)) := by
  induction n generalizing a with
  | zero => simp [firstFailing]
  | succ n ih =>
    unfold firstFailing
    by_cases h : 4096 ≤ a
    · simp [writeCheck, h]; omega
    · by_cases hf : a < 80 ∧ p = .fault
      · simp [writeCheck, h, hf]
      · have hc : writeCheck p a = none := by simp [writeCheck, h]; tauto
        rw [hc]
        simp only []
        rw [ih]
        constructor
        · rintro (rfl | ⟨h1, h2⟩)
          · refine .inr ⟨by omega, fun hp => ?_⟩
            by_contra hlt
            exact hf ⟨by omega, hp⟩
          · refine .inr ⟨by omega, fun hp => ?_⟩
            by_contra hlt
            exact hf ⟨by omega, hp⟩
        · rintro (h0 | ⟨h1, h2⟩)
          · omega
          · by_cases hn : n = 0
            · exact .inl hn
            · exact .inr ⟨by omega, fun hp => by have := h2 hp; omega⟩

/-- The first write that fails: the font under the policy `fault`, or the lowest address of the range that is 4096 or
more. -/
theorem firstFailing_write_eq_some {p : FontWritePolicy} {k : AccessKind} {a n b : Nat}
    (h : firstFailing (writeCheck p) a n = some (k, b)) :
    (k = .romWrite ∧ p = .fault ∧ b = a ∧ a < 80) ∨ (k = .write ∧ b = max a 4096 ∧ b < a + n) := by
  induction n generalizing a with
  | zero => simp [firstFailing] at h
  | succ n ih =>
    unfold firstFailing at h
    by_cases ha : 4096 ≤ a
    · simp [writeCheck, ha] at h
      obtain ⟨rfl, rfl⟩ := h
      exact .inr ⟨rfl, by omega, by omega⟩
    · by_cases hf : a < 80 ∧ p = .fault
      · simp [writeCheck, ha, hf] at h
        obtain ⟨rfl, rfl⟩ := h
        exact .inl ⟨rfl, hf.2, rfl, hf.1⟩
      · have hc : writeCheck p a = none := by simp [writeCheck, ha]; tauto
        rw [hc] at h
        rcases ih h with ⟨h1, h2, h3, h4⟩ | ⟨h1, h2, h3⟩
        · exact absurd ⟨by omega, h2⟩ hf
        · exact .inr ⟨h1, by omega, by omega⟩

/-! ### Stores -/

/-- Outside the font, and inside it under the policies that perform the write, a store is a write. -/
theorem storeBytes_eq_writeBytes {p : FontWritePolicy} {m : Memory} {a : Nat} {vs : List Byte}
    (h : p ≠ .ignore ∨ 80 ≤ a) : storeBytes p m a vs = m.writeBytes a vs := by
  induction vs generalizing m a with
  | nil => rfl
  | cons v vs ih =>
    have hb : storeByte p m a v = m.write a v := by
      unfold storeByte
      rw [if_neg]
      rintro ⟨h1, h2⟩
      rcases h with h | h
      · exact h h2
      · exact absurd h1 (by simp; omega)
    rw [storeBytes, Memory.writeBytes, hb]
    exact ih (h.imp_right (by omega))

/-- Every store keeps the canonical form, under every policy. -/
theorem storeBytes_wf {p : FontWritePolicy} {m : Memory} (h : m.wf = true) (a : Nat) (vs : List Byte) :
    (storeBytes p m a vs).wf = true := by
  induction vs generalizing m a with
  | nil => exact h
  | cons v vs ih =>
    refine ih ?_ (a + 1)
    unfold storeByte
    split
    · exact h
    · exact Memory.write_wf h a v

/-! ### The register lists -/

@[simp] theorem State.regsUpTo_length (s : State) (x : RegIndex) : (s.regsUpTo x).length = x.val + 1 := by
  have := x.isLt
  simp [State.regsUpTo]

/-- The `k`-th value STM stores is register `k`. -/
theorem State.getElem_regsUpTo (s : State) (x : RegIndex) (k : Nat) (hk : k < (s.regsUpTo x).length) :
    (s.regsUpTo x)[k] = s.reg ⟨k, by have := x.isLt; simp at hk; omega⟩ := by
  simp [State.regsUpTo, State.reg]

/-- What a register holds after a run of loads: the byte at its place, or what it held. -/
theorem getElem_loadRegs (regs : Vector Byte 16) (k : Nat) (vs : List Byte) (r : Nat) (hr : r < 16) :
    (loadRegs regs k vs)[r] = if h : k ≤ r ∧ r < k + vs.length then vs[r - k]'(by omega) else regs[r] := by
  induction vs generalizing regs k with
  | nil =>
    have h : ¬ (k ≤ r ∧ r < k + ([] : List Byte).length) := by simp
    rw [dif_neg h]; rfl
  | cons v vs ih =>
    by_cases hk : k < 16
    · have hl : loadRegs regs k (v :: vs) = loadRegs (regs.set k v) (k + 1) vs := by simp [loadRegs, hk]
      simp only [hl, ih]
      by_cases he : k = r
      · subst he
        have h1 : ¬ (k + 1 ≤ k ∧ k < k + 1 + vs.length) := by omega
        rw [dif_neg h1]
        simp
      · by_cases hin : k + 1 ≤ r ∧ r < k + 1 + vs.length
        · have h2 : k ≤ r ∧ r < k + (v :: vs).length := by simp; omega
          rw [dif_pos hin, dif_pos h2, List.getElem_cons]
          have h3 : ¬ r - k = 0 := by omega
          simp only [dif_neg h3]
          congr 1
        · have h2 : ¬ (k ≤ r ∧ r < k + (v :: vs).length) := by simp; omega
          rw [dif_neg hin, dif_neg h2]
          simp [he]
    · have h2 : ¬ (k ≤ r ∧ r < k + (v :: vs).length) := by omega
      have hl : loadRegs regs k (v :: vs) = regs := by simp [loadRegs, hk]
      simp only [hl, dif_neg h2]

/-! ### Through the index register -/

/-- All a store through `I` can do. -/
theorem storeThroughIndex_cases (p : FontWritePolicy) (i : Instr) (vals : List Byte) (s : State) :
    ((vals.length = 0 ∨ (s.idx.toNat + vals.length ≤ 4096 ∧ (p = .fault → 80 ≤ s.idx.toNat))) ∧
      storeThroughIndex p i vals s = .next (s.setMem (storeBytes p s.mem s.idx.toNat vals))) ∨
    (∃ k b, firstFailing (writeCheck p) s.idx.toNat vals.length = some (k, b) ∧
      storeThroughIndex p i vals s = raiseOutOfBounds i s k b) := by
  unfold storeThroughIndex
  cases h : firstFailing (writeCheck p) s.idx.toNat vals.length with
  | none => exact .inl ⟨firstFailing_write_eq_none.mp h, rfl⟩
  | some kb => exact .inr ⟨kb.1, kb.2, rfl, rfl⟩

/-- All a load through `I` can do. -/
theorem loadThroughIndex_cases (i : Instr) (n : Nat) (s : State) (use : List Byte → State) :
    ((n = 0 ∨ s.idx.toNat + n ≤ 4096) ∧
      loadThroughIndex i n s use = .next (use (s.mem.readBytes s.idx.toNat n))) ∨
    (n ≠ 0 ∧ 4096 < s.idx.toNat + n ∧
      loadThroughIndex i n s use = raiseOutOfBounds i s .read (max s.idx.toNat 4096)) := by
  unfold loadThroughIndex
  cases h : firstFailing (readCheck .read) s.idx.toNat n with
  | none => exact .inl ⟨firstFailing_read_eq_none.mp h, rfl⟩
  | some kb =>
    have h1 := firstFailing_read_eq_some h
    have h2 : ¬ (n = 0 ∨ s.idx.toNat + n ≤ 4096) := by
      rw [← firstFailing_read_eq_none (k := .read), h]; simp
    refine .inr ⟨by omega, by omega, ?_⟩
    simp only [h1.1, h1.2.1]

/-- The lowest pressed key is pressed, and no lower key is. -/
theorem State.lowestPressed_eq_some {s : State} {k : Fin 16} :
    s.lowestPressed = some k ↔ s.key[k.val] = true ∧ ∀ j : Fin 16, j < k → s.key[j.val] = false := by
  unfold State.lowestPressed
  constructor
  · intro h
    refine ⟨by have := List.find?_some h; simpa using this, fun j hj => ?_⟩
    rw [List.find?_eq_some_iff_getElem] at h
    obtain ⟨_, n, hn, hk, hlt⟩ := h
    have hnk : n = k.val := by simpa using congrArg Fin.val hk
    have := hlt j.val (by rw [hnk]; exact hj)
    simpa using this
  · rintro ⟨h1, h2⟩
    rw [List.find?_eq_some_iff_getElem]
    refine ⟨h1, k.val, by simp, by simp, fun j hj => ?_⟩
    have := h2 ⟨j, by omega⟩ hj
    simpa using this

/-- No key is pressed exactly when there is no lowest one. -/
theorem State.lowestPressed_eq_none {s : State} : s.lowestPressed = none ↔ ∀ k : Fin 16, s.key[k.val] = false := by
  simp [State.lowestPressed]

end Sys2Proof.Machine
end

