-- ==== Sys2Proof/Laws/PerInstr.lean ====
section
/-! SUPPORT. Statements about every instruction as syntax, one lemma per constructor. Family EncodesItsRow: the word of an
instruction selects the row of the opcode table that carries its mnemonic (30_encoding R76). -/

namespace Sys2Proof

/-- The word of the instruction selects the row of the opcode table under the instruction's own mnemonic. -/
def Laws.EncodesItsRow.Statement (i : Instr) : Prop :=
  ∃ row, row ∈ opcodeTable ∧ row.mnemonic = i.mnemonic ∧ row.selects (encode i) = true

/-- Selecting a row, as an equation of numbers. -/
theorem selects_of_toNat {row : OpcodeRow} {w : Word} (h : (w &&& row.mask).toNat = row.value.toNat) :
    row.selects w = true := by
  simpa [OpcodeRow.selects] using BitVec.eq_of_toNat_eq h

theorem encodeA_selects (m : String) (f : BitVec 4) (nnn : Addr12) (v : Word) (h : v.toNat = f.toNat * 4096) :
    (OpcodeRow.mk m .a 0xF000 v).selects (encodeA f nnn) = true := by
  apply selects_of_toNat
  have hn := nnn.isLt
  have hm := Word.and_F000 (encodeA f nnn)
  rw [encodeA_toNat] at hm
  exact hm.trans (by simp only []; omega)

theorem encodeXK_selects (m : String) (f : BitVec 4) (x : RegIndex) (kk : Byte) (v : Word)
    (h : v.toNat = f.toNat * 4096) : (OpcodeRow.mk m .xk 0xF000 v).selects (encodeXK f x kk) = true := by
  apply selects_of_toNat
  have hx := x.isLt
  have hk := kk.isLt
  have hm := Word.and_F000 (encodeXK f x kk)
  rw [encodeXK_toNat] at hm
  exact hm.trans (by simp only []; omega)

theorem encodeX_selects (m : String) (f : BitVec 4) (x : RegIndex) (kk : Byte) (v : Word)
    (h : v.toNat = f.toNat * 4096 + kk.toNat) : (OpcodeRow.mk m .x 0xF0FF v).selects (encodeXK f x kk) = true := by
  apply selects_of_toNat
  have hx := x.isLt
  have hk := kk.isLt
  have hm := Word.and_F0FF (encodeXK f x kk)
  rw [encodeXK_toNat] at hm
  exact hm.trans (by simp only []; omega)

theorem encodeXY_selects (m : String) (f : BitVec 4) (x y : RegIndex) (n : Fin 16) (v : Word)
    (h : v.toNat = f.toNat * 4096 + n.val) : (OpcodeRow.mk m .xy 0xF00F v).selects (encodeXYN f x y n) = true := by
  apply selects_of_toNat
  have hx := x.isLt
  have hy := y.isLt
  have hn := n.isLt
  have hm := Word.and_F00F (encodeXYN f x y n)
  rw [encodeXYN_toNat] at hm
  exact hm.trans (by simp only []; omega)

theorem encodeXYN_selects (m : String) (f : BitVec 4) (x y : RegIndex) (n : Fin 16) (v : Word)
    (h : v.toNat = f.toNat * 4096) : (OpcodeRow.mk m .xyn 0xF000 v).selects (encodeXYN f x y n) = true := by
  apply selects_of_toNat
  have hx := x.isLt
  have hy := y.isLt
  have hn := n.isLt
  have hm := Word.and_F000 (encodeXYN f x y n)
  rw [encodeXYN_toNat] at hm
  exact hm.trans (by simp only []; omega)

theorem Laws.EncodesItsRow.nop : Laws.EncodesItsRow.Statement .nop :=
  ⟨⟨"NOP", .z, 0xFFFF, 0x0000⟩, by decide, rfl, by decide⟩

theorem Laws.EncodesItsRow.cls : Laws.EncodesItsRow.Statement .cls :=
  ⟨⟨"CLS", .z, 0xFFFF, 0x00E0⟩, by decide, rfl, by decide⟩

theorem Laws.EncodesItsRow.ret : Laws.EncodesItsRow.Statement .ret :=
  ⟨⟨"RET", .z, 0xFFFF, 0x00EE⟩, by decide, rfl, by decide⟩

theorem Laws.EncodesItsRow.jp (nnn : Addr12) : Laws.EncodesItsRow.Statement (.jp nnn) :=
  ⟨⟨"JP", .a, 0xF000, 0x1000⟩, by decide, rfl, encodeA_selects _ 0x1 nnn _ rfl⟩

theorem Laws.EncodesItsRow.call (nnn : Addr12) : Laws.EncodesItsRow.Statement (.call nnn) :=
  ⟨⟨"CALL", .a, 0xF000, 0x2000⟩, by decide, rfl, encodeA_selects _ 0x2 nnn _ rfl⟩

theorem Laws.EncodesItsRow.seb (x : RegIndex) (kk : Byte) : Laws.EncodesItsRow.Statement (.seb x kk) :=
  ⟨⟨"SEB", .xk, 0xF000, 0x3000⟩, by decide, rfl, encodeXK_selects _ 0x3 x kk _ rfl⟩

theorem Laws.EncodesItsRow.sneb (x : RegIndex) (kk : Byte) : Laws.EncodesItsRow.Statement (.sneb x kk) :=
  ⟨⟨"SNEB", .xk, 0xF000, 0x4000⟩, by decide, rfl, encodeXK_selects _ 0x4 x kk _ rfl⟩

theorem Laws.EncodesItsRow.se (x y : RegIndex) : Laws.EncodesItsRow.Statement (.se x y) :=
  ⟨⟨"SE", .xy, 0xF00F, 0x5000⟩, by decide, rfl, encodeXY_selects _ 0x5 x y 0x0 _ rfl⟩

theorem Laws.EncodesItsRow.ldb (x : RegIndex) (kk : Byte) : Laws.EncodesItsRow.Statement (.ldb x kk) :=
  ⟨⟨"LDB", .xk, 0xF000, 0x6000⟩, by decide, rfl, encodeXK_selects _ 0x6 x kk _ rfl⟩

theorem Laws.EncodesItsRow.addb (x : RegIndex) (kk : Byte) : Laws.EncodesItsRow.Statement (.addb x kk) :=
  ⟨⟨"ADDB", .xk, 0xF000, 0x7000⟩, by decide, rfl, encodeXK_selects _ 0x7 x kk _ rfl⟩

theorem Laws.EncodesItsRow.mov (x y : RegIndex) : Laws.EncodesItsRow.Statement (.mov x y) :=
  ⟨⟨"MOV", .xy, 0xF00F, 0x8000⟩, by decide, rfl, encodeXY_selects _ 0x8 x y 0x0 _ rfl⟩

theorem Laws.EncodesItsRow.or (x y : RegIndex) : Laws.EncodesItsRow.Statement (.or x y) :=
  ⟨⟨"OR", .xy, 0xF00F, 0x8001⟩, by decide, rfl, encodeXY_selects _ 0x8 x y 0x1 _ rfl⟩

theorem Laws.EncodesItsRow.and (x y : RegIndex) : Laws.EncodesItsRow.Statement (.and x y) :=
  ⟨⟨"AND", .xy, 0xF00F, 0x8002⟩, by decide, rfl, encodeXY_selects _ 0x8 x y 0x2 _ rfl⟩

theorem Laws.EncodesItsRow.xor (x y : RegIndex) : Laws.EncodesItsRow.Statement (.xor x y) :=
  ⟨⟨"XOR", .xy, 0xF00F, 0x8003⟩, by decide, rfl, encodeXY_selects _ 0x8 x y 0x3 _ rfl⟩

theorem Laws.EncodesItsRow.add (x y : RegIndex) : Laws.EncodesItsRow.Statement (.add x y) :=
  ⟨⟨"ADD", .xy, 0xF00F, 0x8004⟩, by decide, rfl, encodeXY_selects _ 0x8 x y 0x4 _ rfl⟩

theorem Laws.EncodesItsRow.sub (x y : RegIndex) : Laws.EncodesItsRow.Statement (.sub x y) :=
  ⟨⟨"SUB", .xy, 0xF00F, 0x8005⟩, by decide, rfl, encodeXY_selects _ 0x8 x y 0x5 _ rfl⟩

theorem Laws.EncodesItsRow.shr (x : RegIndex) : Laws.EncodesItsRow.Statement (.shr x) :=
  ⟨⟨"SHR", .xy, 0xF00F, 0x8006⟩, by decide, rfl, encodeXY_selects _ 0x8 x 0 0x6 _ rfl⟩

theorem Laws.EncodesItsRow.subn (x y : RegIndex) : Laws.EncodesItsRow.Statement (.subn x y) :=
  ⟨⟨"SUBN", .xy, 0xF00F, 0x8007⟩, by decide, rfl, encodeXY_selects _ 0x8 x y 0x7 _ rfl⟩

theorem Laws.EncodesItsRow.shl (x : RegIndex) : Laws.EncodesItsRow.Statement (.shl x) :=
  ⟨⟨"SHL", .xy, 0xF00F, 0x800E⟩, by decide, rfl, encodeXY_selects _ 0x8 x 0 0xE _ rfl⟩

theorem Laws.EncodesItsRow.sne (x y : RegIndex) : Laws.EncodesItsRow.Statement (.sne x y) :=
  ⟨⟨"SNE", .xy, 0xF00F, 0x9000⟩, by decide, rfl, encodeXY_selects _ 0x9 x y 0x0 _ rfl⟩

theorem Laws.EncodesItsRow.ldi (nnn : Addr12) : Laws.EncodesItsRow.Statement (.ldi nnn) :=
  ⟨⟨"LDI", .a, 0xF000, 0xA000⟩, by decide, rfl, encodeA_selects _ 0xA nnn _ rfl⟩

theorem Laws.EncodesItsRow.jpv0 (nnn : Addr12) : Laws.EncodesItsRow.Statement (.jpv0 nnn) :=
  ⟨⟨"JPV0", .a, 0xF000, 0xB000⟩, by decide, rfl, encodeA_selects _ 0xB nnn _ rfl⟩

theorem Laws.EncodesItsRow.rnd (x : RegIndex) (kk : Byte) : Laws.EncodesItsRow.Statement (.rnd x kk) :=
  ⟨⟨"RND", .xk, 0xF000, 0xC000⟩, by decide, rfl, encodeXK_selects _ 0xC x kk _ rfl⟩

theorem Laws.EncodesItsRow.drw (x y : RegIndex) (n : RowCount) : Laws.EncodesItsRow.Statement (.drw x y n) :=
  ⟨⟨"DRW", .xyn, 0xF000, 0xD000⟩, by decide, rfl, encodeXYN_selects _ 0xD x y n _ rfl⟩

theorem Laws.EncodesItsRow.skp (x : RegIndex) : Laws.EncodesItsRow.Statement (.skp x) :=
  ⟨⟨"SKP", .x, 0xF0FF, 0xE09E⟩, by decide, rfl, encodeX_selects _ 0xE x 0x9E _ rfl⟩

theorem Laws.EncodesItsRow.sknp (x : RegIndex) : Laws.EncodesItsRow.Statement (.sknp x) :=
  ⟨⟨"SKNP", .x, 0xF0FF, 0xE0A1⟩, by decide, rfl, encodeX_selects _ 0xE x 0xA1 _ rfl⟩

theorem Laws.EncodesItsRow.lddt (x : RegIndex) : Laws.EncodesItsRow.Statement (.lddt x) :=
  ⟨⟨"LDDT", .x, 0xF0FF, 0xF007⟩, by decide, rfl, encodeX_selects _ 0xF x 0x07 _ rfl⟩

theorem Laws.EncodesItsRow.wkey (x : RegIndex) : Laws.EncodesItsRow.Statement (.wkey x) :=
  ⟨⟨"WKEY", .x, 0xF0FF, 0xF00A⟩, by decide, rfl, encodeX_selects _ 0xF x 0x0A _ rfl⟩

theorem Laws.EncodesItsRow.stdt (x : RegIndex) : Laws.EncodesItsRow.Statement (.stdt x) :=
  ⟨⟨"STDT", .x, 0xF0FF, 0xF015⟩, by decide, rfl, encodeX_selects _ 0xF x 0x15 _ rfl⟩

theorem Laws.EncodesItsRow.stst (x : RegIndex) : Laws.EncodesItsRow.Statement (.stst x) :=
  ⟨⟨"STST", .x, 0xF0FF, 0xF018⟩, by decide, rfl, encodeX_selects _ 0xF x 0x18 _ rfl⟩

theorem Laws.EncodesItsRow.addi (x : RegIndex) : Laws.EncodesItsRow.Statement (.addi x) :=
  ⟨⟨"ADDI", .x, 0xF0FF, 0xF01E⟩, by decide, rfl, encodeX_selects _ 0xF x 0x1E _ rfl⟩

theorem Laws.EncodesItsRow.ldf (x : RegIndex) : Laws.EncodesItsRow.Statement (.ldf x) :=
  ⟨⟨"LDF", .x, 0xF0FF, 0xF029⟩, by decide, rfl, encodeX_selects _ 0xF x 0x29 _ rfl⟩

theorem Laws.EncodesItsRow.bcd (x : RegIndex) : Laws.EncodesItsRow.Statement (.bcd x) :=
  ⟨⟨"BCD", .x, 0xF0FF, 0xF033⟩, by decide, rfl, encodeX_selects _ 0xF x 0x33 _ rfl⟩

theorem Laws.EncodesItsRow.stm (x : RegIndex) : Laws.EncodesItsRow.Statement (.stm x) :=
  ⟨⟨"STM", .x, 0xF0FF, 0xF055⟩, by decide, rfl, encodeX_selects _ 0xF x 0x55 _ rfl⟩

theorem Laws.EncodesItsRow.ldm (x : RegIndex) : Laws.EncodesItsRow.Statement (.ldm x) :=
  ⟨⟨"LDM", .x, 0xF0FF, 0xF065⟩, by decide, rfl, encodeX_selects _ 0xF x 0x65 _ rfl⟩

end Sys2Proof
end

