-- ==== Sys2Proof/Tests/Slice0.lean ====
section
/-! SUPPORT. The model's own tests. Expected values come from the spec: the encodings of 30_encoding R76 and R78, and the
vectors of 95_test_vectors, named in the comment before each test (S, F, J, A, M, N, W, K, T, Z, H). Then, for every statement
with hypotheses, a witness: a concrete state and operands that meet all of them, at the ends of their ranges. -/

namespace Sys2Proof.Tests

open Sys2Proof.Machine

/-! ### Small states and what a result shows -/

/-- The state after RESET with registers set. -/
def withRegs (s : State) (l : List (RegIndex × Byte)) : State := l.foldl (fun t p => t.setReg p.1 p.2) s

/-- The state with bytes stored from an address up. -/
def withBytes (s : State) (a : Nat) (l : List Byte) : State := s.setMem (s.mem.writeBytes a l)

/-- One STEP of a word placed at `PC`. -/
def run (w : Nat) (s : State) : Result := step (s.withFetchWord 16 w)

def pcOf (r : Result) : Option Word := (nextOf r).map State.pc
def idxOf (r : Result) : Option Word := (nextOf r).map State.idx
def regOf (x : RegIndex) (r : Result) : Option Byte := (nextOf r).map fun t => t.reg x
def memOf (a n : Nat) (r : Result) : Option (List Byte) := (nextOf r).map fun t => t.mem.readBytes a n
def pixelOf (col : Fin 64) (row : Fin 32) (r : Result) : Option Bool := (nextOf r).map fun t => t.fb.pixel col row

/-! ### Ill-formed words: one for each group of 30_encoding R78 (F6 to F15) -/

theorem test_wf_refuses_family0 : WellFormed.word 0x0001#16 = false ∧ decode 0x0001#16 = .unknownOpcode 0x0001#16 := by decide
theorem test_wf_refuses_family5 : WellFormed.word 0x5121#16 = false ∧ decode 0x5121#16 = .unknownOpcode 0x5121#16 := by decide
theorem test_wf_refuses_family8 : WellFormed.word 0x8128#16 = false ∧ decode 0x8128#16 = .unknownOpcode 0x8128#16 := by decide
theorem test_wf_refuses_family9 : WellFormed.word 0x9121#16 = false ∧ decode 0x9121#16 = .unknownOpcode 0x9121#16 := by decide
theorem test_wf_refuses_familyE : WellFormed.word 0xE500#16 = false ∧ decode 0xE500#16 = .unknownOpcode 0xE500#16 := by decide
theorem test_wf_refuses_familyF : WellFormed.word 0xF2FF#16 = false ∧ decode 0xF2FF#16 = .unknownOpcode 0xF2FF#16 := by decide
theorem test_wf_accepts : WellFormed.word 0x5120#16 = true ∧ WellFormed.word 0x00E0#16 = true ∧
    WellFormed.word 0x81EE#16 = true ∧ WellFormed.word 0xE5A1#16 = true ∧ WellFormed.word 0xF265#16 = true := by decide

/-! ### Every constructor's decoding, by a word written bit by bit from its row (30_encoding R73, R76) -/

theorem test_decode_nop : decode 0b0000000000000000#16 = .instr .nop := by decide
theorem test_decode_cls : decode 0b0000000011100000#16 = .instr .cls := by decide
theorem test_decode_ret : decode 0b0000000011101110#16 = .instr .ret := by decide
theorem test_decode_jp : decode 0b0001001010100100#16 = .instr (.jp 0x2A4#12) := by decide
theorem test_decode_call : decode 0b0010111111111110#16 = .instr (.call 0xFFE#12) := by decide
theorem test_decode_seb : decode 0b0011001100101010#16 = .instr (.seb 3 0x2A#8) := by decide
theorem test_decode_sneb : decode 0b0100001100101010#16 = .instr (.sneb 3 0x2A#8) := by decide
theorem test_decode_se : decode 0b0101000100100000#16 = .instr (.se 1 2) := by decide
theorem test_decode_ldb : decode 0b0110101000101111#16 = .instr (.ldb 10 0x2F#8) := by decide
theorem test_decode_addb : decode 0b0111000100001010#16 = .instr (.addb 1 0x0A#8) := by decide
theorem test_decode_mov : decode 0b1000000100100000#16 = .instr (.mov 1 2) := by decide
theorem test_decode_or : decode 0b1000000100100001#16 = .instr (.or 1 2) := by decide
theorem test_decode_and : decode 0b1000000100100010#16 = .instr (.and 1 2) := by decide
theorem test_decode_xor : decode 0b1000000100100011#16 = .instr (.xor 1 2) := by decide
theorem test_decode_add : decode 0b1000000100100100#16 = .instr (.add 1 2) := by decide
theorem test_decode_sub : decode 0b1000000100100101#16 = .instr (.sub 1 2) := by decide
theorem test_decode_shr : decode 0b1000000100100110#16 = .instr (.shr 1) := by decide
theorem test_decode_subn : decode 0b1000000100100111#16 = .instr (.subn 1 2) := by decide
theorem test_decode_shl : decode 0b1000000100101110#16 = .instr (.shl 1) := by decide
theorem test_decode_sne : decode 0b1001000100100000#16 = .instr (.sne 1 2) := by decide
theorem test_decode_ldi : decode 0b1010001011110000#16 = .instr (.ldi 0x2F0#12) := by decide
theorem test_decode_jpv0 : decode 0b1011001100000000#16 = .instr (.jpv0 0x300#12) := by decide
theorem test_decode_rnd : decode 0b1100001100001111#16 = .instr (.rnd 3 0x0F#8) := by decide
theorem test_decode_drw : decode 0b1101000100100101#16 = .instr (.drw 1 2 5) := by decide
theorem test_decode_skp : decode 0b1110010110011110#16 = .instr (.skp 5) := by decide
theorem test_decode_sknp : decode 0b1110010110100001#16 = .instr (.sknp 5) := by decide
theorem test_decode_lddt : decode 0b1111001000000111#16 = .instr (.lddt 2) := by decide
theorem test_decode_wkey : decode 0b1111011000001010#16 = .instr (.wkey 6) := by decide
theorem test_decode_stdt : decode 0b1111001000010101#16 = .instr (.stdt 2) := by decide
theorem test_decode_stst : decode 0b1111001000011000#16 = .instr (.stst 2) := by decide
theorem test_decode_addi : decode 0b1111001000011110#16 = .instr (.addi 2) := by decide
theorem test_decode_ldf : decode 0b1111010000101001#16 = .instr (.ldf 4) := by decide
theorem test_decode_bcd : decode 0b1111001100110011#16 = .instr (.bcd 3) := by decide
theorem test_decode_stm : decode 0b1111001001010101#16 = .instr (.stm 2) := by decide
theorem test_decode_ldm : decode 0b1111001001100101#16 = .instr (.ldm 2) := by decide

/-- The examples of 30_encoding R81 and of the vectors, encoded. -/
theorem test_encode_samples : encode (.call 0x300#12) = 0x2300#16 ∧ encode (.shr 1) = 0x8106#16 ∧
    encode (.drw 1 2 5) = 0xD125#16 ∧ encodeBytes (.ldm 2) = [0xF2#8, 0x65#8] := by decide

/-- The host's probes. -/
theorem test_decode_table_word : decodeTableWord 16 0x8124 = some (.add 1 2) ∧ decodeTableWord 16 0x5121 = none := by decide
theorem test_with_fetch_word : fetch (State.reset.withFetchWord 16 0x6A2F) = .ok 0x6A2F#16 := by decide

/-! ### One STEP each (95_test_vectors) -/

-- Z1, Z2
theorem test_nop : pcOf (run 0x0000 State.reset) = some 0x202#16 := by decide
theorem test_cls : pixelOf 63 31 (run 0x00E0 (State.reset.setFb ((State.reset.fb.setPixel 0 0 true).setPixel 63 31 true))) =
    some false := by decide
-- J7, J8
theorem test_ret : pcOf (run 0x00EE { State.reset with sp := 1, stack := State.reset.stack.set 0 0x202#16 }) =
    some 0x202#16 := by decide
theorem test_ret_underflow : faultOf (run 0x00EE State.reset) = some (.stackUnderflow 0x200#16 0x00EE#16) := by decide
-- J2
theorem test_jp : pcOf (run 0x1FFF State.reset) = some 0xFFF#16 := by decide
-- J5, J6
theorem test_call_overflow : faultOf (run 0x2300 { State.reset with sp := 16 }) =
    some (.stackOverflow 0x200#16 0x2300#16) := by decide
theorem test_call : (nextOf (run 0x2FFE { State.reset with pc := 0xFFE#16 })).map (fun t => (t.pc, t.sp, t.stack[0])) =
    some (0xFFE#16, 1, 0x1000#16) := by decide
-- J11, J20
theorem test_seb : pcOf (run 0x332A (withRegs State.reset [(3, 0x2A)])) = some 0x204#16 := by decide
theorem test_seb_at_end : pcOf (run 0x3000 { State.reset with pc := 0xFFE#16 }) = some 0x1002#16 := by decide
-- J13, J14
theorem test_sneb_equal : pcOf (run 0x432A (withRegs State.reset [(3, 0x2A)])) = some 0x202#16 := by decide
theorem test_sneb : pcOf (run 0x432A State.reset) = some 0x204#16 := by decide
-- J15, J16
theorem test_se : pcOf (run 0x5120 (withRegs State.reset [(1, 7), (2, 7)])) = some 0x204#16 := by decide
theorem test_se_unequal : pcOf (run 0x5120 (withRegs State.reset [(1, 7), (2, 8)])) = some 0x202#16 := by decide
-- A1, A2
theorem test_ldb : regOf 10 (run 0x6A2F State.reset) = some 0x2F#8 := by decide
theorem test_ldb_vf : regOf 15 (run 0x6FAB State.reset) = some 0xAB#8 := by decide
-- A4, A5
theorem test_addb_keeps_flag : (nextOf (run 0x7101 (withRegs State.reset [(1, 0xFF), (15, 7)]))).map
    (fun t => (t.reg 1, t.reg 15)) = some (0x00#8, 0x07#8) := by decide
theorem test_addb_vf : regOf 15 (run 0x7F01 (withRegs State.reset [(15, 0xFF)])) = some 0x00#8 := by decide
-- A6
theorem test_mov : regOf 1 (run 0x8120 (withRegs State.reset [(2, 0x33)])) = some 0x33#8 := by decide
-- A7 to A10
theorem test_or : (nextOf (run 0x8121 (withRegs State.reset [(1, 0xF0), (2, 0x0F), (15, 5)]))).map
    (fun t => (t.reg 1, t.reg 15)) = some (0xFF#8, 0x05#8) := by decide
theorem test_and : regOf 1 (run 0x8122 (withRegs State.reset [(1, 0xF0), (2, 0x3C)])) = some 0x30#8 := by decide
theorem test_xor : regOf 1 (run 0x8123 (withRegs State.reset [(1, 0xF0), (2, 0x3C)])) = some 0xCC#8 := by decide
-- S2, A14
theorem test_add : (nextOf (run 0x8124 (withRegs State.reset [(1, 250), (2, 10)]))).map
    (fun t => (t.reg 1, t.reg 15)) = some (4#8, 1#8) := by decide
theorem test_add_into_vf : regOf 15 (run 0x8F14 (withRegs State.reset [(15, 200), (1, 100)])) = some 1#8 := by decide
-- S5, A17
theorem test_sub_borrow : (nextOf (run 0x8125 (withRegs State.reset [(1, 5), (2, 10)]))).map
    (fun t => (t.reg 1, t.reg 15)) = some (251#8, 0#8) := by decide
theorem test_sub_equal : (nextOf (run 0x8125 (withRegs State.reset [(1, 7), (2, 7)]))).map
    (fun t => (t.reg 1, t.reg 15)) = some (0#8, 1#8) := by decide
-- A22, A25
theorem test_shr_ignores_y : (nextOf (run 0x8126 (withRegs State.reset [(1, 4), (2, 0xFF), (15, 1)]))).map
    (fun t => (t.reg 1, t.reg 2, t.reg 15)) = some (2#8, 0xFF#8, 0#8) := by decide
theorem test_shr_vf : regOf 15 (run 0x8F06 (withRegs State.reset [(15, 2)])) = some 0#8 := by decide
-- A26, A27
theorem test_subn : (nextOf (run 0x8127 (withRegs State.reset [(1, 5), (2, 10)]))).map
    (fun t => (t.reg 1, t.reg 15)) = some (5#8, 1#8) := by decide
theorem test_subn_borrow : (nextOf (run 0x8127 (withRegs State.reset [(1, 10), (2, 5)]))).map
    (fun t => (t.reg 1, t.reg 15)) = some (251#8, 0#8) := by decide
-- A29, A32
theorem test_shl : (nextOf (run 0x810E (withRegs State.reset [(1, 0x81)]))).map
    (fun t => (t.reg 1, t.reg 15)) = some (2#8, 1#8) := by decide
theorem test_shl_vf : regOf 15 (run 0x8F0E (withRegs State.reset [(15, 0x80)])) = some 1#8 := by decide
-- J17, J19
theorem test_sne : pcOf (run 0x9120 (withRegs State.reset [(1, 7), (2, 8)])) = some 0x204#16 := by decide
theorem test_sne_same_register : pcOf (run 0x9330 (withRegs State.reset [(3, 9)])) = some 0x202#16 := by decide
-- M1
theorem test_ldi : idxOf (run 0xA2F0 State.reset) = some 0x2F0#16 := by decide
-- J10
theorem test_jpv0 : pcOf (run 0xBFFF (withRegs State.reset [(0, 0xFF)])) = some 0x10FE#16 := by decide
-- N1, N4
theorem test_rnd : regOf 3 (stepWith 0xB7#8 (State.reset.withFetchWord 16 0xC30F)) = some 0x07#8 := by decide
theorem test_rnd_high_nibble : regOf 3 (stepWith 0x5A#8 (State.reset.withFetchWord 16 0xC3F0)) = some 0x50#8 := by decide
-- W2, W5
theorem test_drw_wraps : (nextOf (run 0xD121 ((withBytes (withRegs State.reset [(1, 62), (2, 31), (15, 9)]) 0x300 [0xE0]).setIdx
    0x300#16))).map (fun t => (t.fb.pixel 63 31, t.fb.pixel 0 31, t.fb.pixel 1 31, t.reg 15)) =
    some (true, true, false, 0#8) := by decide
theorem test_drw_collision : (nextOf (run 0xD122 (((withBytes (withRegs State.reset [(1, 5), (2, 5)]) 0x300 [0x80, 0x80]).setIdx
    0x300#16).setFb (State.reset.fb.setPixel 5 5 true)))).map (fun t => (t.fb.pixel 5 5, t.fb.pixel 5 6, t.reg 15)) =
    some (false, true, 1#8) := by decide
-- K1, K4
theorem test_skp : pcOf (run 0xE59E ((withRegs State.reset [(5, 10)]).setKeyFlag 10 true)) = some 0x204#16 := by decide
theorem test_skp_not_masked : faultOf (run 0xE59E ((withRegs State.reset [(5, 0x1A)]).setKeyFlag 10 true)) =
    some (.outOfBoundsAccess 0x200#16 (some 0xE59E#16) .key 0x1A#16) := by decide
-- K5, K6
theorem test_sknp : pcOf (run 0xE5A1 (withRegs State.reset [(5, 10)])) = some 0x204#16 := by decide
theorem test_sknp_pressed : pcOf (run 0xE5A1 ((withRegs State.reset [(5, 10)]).setKeyFlag 10 true)) = some 0x202#16 := by decide
-- T1
theorem test_lddt : regOf 2 (run 0xF207 (State.reset.setDt 0x3C#8)) = some 0x3C#8 := by decide
-- K8, K9
theorem test_wkey : (nextOf (run 0xF60A ((State.reset.setKeyFlag 3 true).setKeyFlag 9 true))).map
    (fun t => (t.reg 6, t.pc)) = some (3#8, 0x202#16) := by decide
theorem test_wkey_no_key : (nextOf (run 0xF60A (withRegs State.reset [(6, 0x55)]))).map
    (fun t => (t.reg 6, t.pc)) = some (0x55#8, 0x200#16) := by decide
-- T2, T3
theorem test_stdt : (nextOf (run 0xF215 (withRegs State.reset [(2, 0x3C)]))).map State.dt = some 0x3C#8 := by decide
theorem test_stst : (nextOf (run 0xF218 (withRegs State.reset [(2, 5)]))).map State.st = some 5#8 := by decide
-- M6
theorem test_addi : (nextOf (run 0xF21E ((withRegs State.reset [(2, 2), (15, 7)]).setIdx 0xFFFF#16))).map
    (fun t => (t.idx, t.reg 15)) = some (0x0001#16, 7#8) := by decide
-- M2, M4
theorem test_ldf : idxOf (run 0xF429 (withRegs State.reset [(4, 0x0A)])) = some 0x032#16 := by decide
theorem test_ldf_not_masked : idxOf (run 0xF429 (withRegs State.reset [(4, 255)])) = some 0x4FB#16 := by decide
-- S6, M26
theorem test_bcd : memOf 0x300 3 (run 0xF333 ((withRegs State.reset [(3, 234)]).setIdx 0x300#16)) =
    some [2#8, 3#8, 4#8] := by decide
theorem test_bcd_into_font : faultOf (run 0xF333 ((withRegs State.reset [(3, 123)]).setIdx 0x4F#16)) =
    some (.outOfBoundsAccess 0x200#16 (some 0xF333#16) .romWrite 0x4F#16) := by decide
-- M8, M10
theorem test_stm : memOf 0x300 4 (run 0xF255 ((withRegs State.reset [(0, 1), (1, 2), (2, 3), (3, 9)]).setIdx 0x300#16)) =
    some [1#8, 2#8, 3#8, 0#8] := by decide
theorem test_stm_past_end : faultOf (run 0xF255 ((withRegs State.reset [(0, 1), (1, 2), (2, 3)]).setIdx 0xFFE#16)) =
    some (.outOfBoundsAccess 0x200#16 (some 0xF255#16) .write 0x1000#16) := by decide
-- M15, M16
theorem test_ldm : (nextOf (run 0xF165 ((withBytes State.reset 0x300 [0xAA, 0xBB, 0xCC]).setIdx 0x300#16))).map
    (fun t => (t.reg 0, t.reg 1, t.reg 2)) = some (0xAA#8, 0xBB#8, 0#8) := by decide
theorem test_ldm_font : (nextOf (run 0xF265 State.reset)).map (fun t => (t.reg 0, t.reg 1, t.reg 2)) =
    some (0xF0#8, 0x90#8, 0x90#8) := by decide

/-! ### Fetch and the other operations -/

-- F2, F3, F5
theorem test_fetch_past_end : faultOf (step { State.reset with pc := 0x1000#16 }) =
    some (.outOfBoundsAccess 0x1000#16 none .fetch 0x1000#16) := by decide
theorem test_fetch_last_byte : faultOf (step { State.reset with pc := 4095#16 }) =
    some (.outOfBoundsAccess 4095#16 none .fetch 0x1000#16) := by decide
theorem test_font_is_no_instruction : faultOf (step { State.reset with pc := 0#16 }) =
    some (.unknownOpcode 0#16 0xF090#16) := by decide
-- F4: an odd PC
theorem test_odd_pc : regOf 1 (run 0x6122 { State.reset with pc := 0x201#16 }) = some 0x22#8 := by decide
-- T4, T7
theorem test_tick_beeps : (operate .tick { State.reset with st := 1 }).2 = .beep true ∧
    (operate .tick { State.reset with st := 2 }).2 = .beep false ∧ (operate .tick State.reset).2 = .beep false := by decide
-- H5
theorem test_load_keeps_the_tail : (operate (.load [0x60, 0x01]) (operate (.load [0x12, 0x00, 0xAA, 0xBB]) State.reset).1).1.mem.readBytes
    0x200 4 = [0x60#8, 0x01#8, 0xAA#8, 0xBB#8] := by decide
-- H7
theorem test_setkey : (operate (.setKey 7 true) State.reset).1.key[7] = true ∧
    (operate (.setKey 7 false) (operate (.setKey 7 true) State.reset).1).1.key[7] = false := by decide

/-! ### Witnesses: the hypotheses of each statement can be met -/

/-- Both branches: a word with an ignored Y, and any other. -/
theorem witness_EncodeOfDecodeKeepsTheWord :
    (decode 0x8126#16 = .instr (.shr 1) ∧ 0x8126#16 &&& 0xF00F#16 = 0x8006#16) ∧
    (decode 0x812E#16 = .instr (.shl 1) ∧ 0x812E#16 &&& 0xF00F#16 = 0x800E#16) ∧
    (decode 0x8127#16 = .instr (.subn 1 2) ∧ 0x8127#16 &&& 0xF00F#16 = 0x8007#16) := by decide

theorem witness_DecoderAgreesWithTheOpcodeTable :
    decode 0xFF65#16 = .instr (.ldm 15) ∧ decode 0xFF66#16 = .unknownOpcode 0xFF66#16 := by decide

/-- `PC` = 4094 (F1), the last address a fetch reads, and an odd `PC` (F4). -/
theorem witness_StepRunsTheDecodedInstruction :
    (∃ s : State, s.pc.toNat = 4094 ∧ decode (wordAt s s.pc.toNat) = .instr (.ldb 0 0x11#8)) ∧
    (∃ s : State, s.pc.toNat = 0x201 ∧ decode (wordAt s s.pc.toNat) = .instr (.ldb 1 0x22#8)) :=
  ⟨⟨({ State.reset with pc := 4094#16 } : State).withFetchWord 16 0x6011, by decide⟩,
   ⟨({ State.reset with pc := 0x201#16 } : State).withFetchWord 16 0x6122, by decide⟩⟩

theorem witness_FetchOutsideMemoryFaults :
    (∃ s : State, s.pc.toNat = 4095) ∧ (∃ s : State, s.pc.toNat = 4096) ∧ (∃ s : State, s.pc.toNat = 65535) :=
  ⟨⟨{ State.reset with pc := 4095#16 }, rfl⟩, ⟨{ State.reset with pc := 4096#16 }, rfl⟩,
   ⟨{ State.reset with pc := 65535#16 }, rfl⟩⟩

theorem witness_UnknownWordFaults :
    (∃ s : State, s.pc.toNat = 0 ∧ WellFormed.word (wordAt s s.pc.toNat) = false) ∧
    (∃ s : State, s.pc.toNat = 4094 ∧ WellFormed.word (wordAt s s.pc.toNat) = false) :=
  ⟨⟨{ State.reset with pc := 0#16 }, by decide⟩,
   ⟨({ State.reset with pc := 4094#16 } : State).withFetchWord 16 0xFFFF, by decide⟩⟩

/-- A failed STEP with a fetched word, and one whose fetch failed. -/
theorem witness_FailedStepRecordNamesTheInstruction :
    (∃ (s : State) (f : Fault), step s = .fault f ∧ s.pc.toNat ≤ 4094) ∧
    (∃ (s : State) (f : Fault), step s = .fault f ∧ 4095 ≤ s.pc.toNat) :=
  ⟨⟨State.reset.withFetchWord 16 0x00EE, _, rfl, by decide⟩, ⟨{ State.reset with pc := 4095#16 }, _, rfl, by decide⟩⟩

/-- An error of each kind an instruction can raise. -/
theorem witness_InstructionsRaiseOnlyTheirErrors :
    (faultOf (exec .ret State.reset)).map Fault.code = some 4 ∧
    (faultOf (exec (.call 0#12) { State.reset with sp := 16 })).map Fault.code = some 3 ∧
    (faultOf (exec (.ldm 0) (State.reset.setIdx 4096#16))).map Fault.kind = some (some .read) ∧
    (faultOf (exec (.stm 0) (State.reset.setIdx 4096#16))).map Fault.kind = some (some .write) ∧
    (faultOf (exec (.bcd 0) (State.reset.setIdx 79#16))).map Fault.kind = some (some .romWrite) ∧
    (faultOf (exec (.skp 0) (State.reset.setReg 0 16#8))).map Fault.kind = some (some .key) := by decide

theorem witness_FailedOperationsChangeNothing :
    (∃ (s : State) (rnd : Byte) (f : Fault), stepWith rnd s = .fault f) ∧
    (∃ (s : State) (bytes : List Byte) (f : Fault), load bytes s = .fault f) :=
  ⟨⟨State.reset.withFetchWord 16 0x00EE, 0, _, rfl⟩,
   ⟨State.reset, List.replicate 3585 0, _, if_pos (by rw [List.length_replicate]; decide)⟩⟩

/-- A key fault: the one error that stands beside the key flags. -/
theorem witness_FailedStepFailsAgain : ∃ (s : State) (rnd : Byte) (f : Fault), stepWith rnd s = .fault f :=
  ⟨(State.reset.setReg 5 16#8).withFetchWord 16 0xE59E, 0, _, rfl⟩

theorem witness_OnlyRndUsesTheRandomByte : (Instr.drw 1 2 3).mnemonic ≠ "RND" ∧ Instr.nop.mnemonic ≠ "RND" := by decide

theorem witness_InstructionsChangeOnlyTheirParts : ∃ (i : Instr) (s t : State), exec i s = .next t ∧ t.idx ≠ s.idx :=
  ⟨.ldi 0x300#12, State.reset, _, rfl, by decide⟩

theorem witness_OtherRegistersKeepTheirValue :
    ∃ (i : Instr) (s t : State) (r : RegIndex), exec i s = .next t ∧ mayWriteReg i r = false :=
  ⟨.ldm 14, State.reset, _, 15, rfl, by decide⟩

theorem witness_ElevenInstructionsWriteThePc : ∃ (i : Instr) (s t : State), exec i s = .next t ∧ t.pc ≠ s.pc :=
  ⟨.sknp 0, State.reset, _, rfl, by decide⟩

/-- `SP` = 0, 15 and 16. -/
theorem witness_CallPushesTheAdvancedPc :
    (∃ s : State, s.sp.val = 0) ∧ (∃ s : State, s.sp.val = 15) ∧ (∃ s : State, s.sp.val = 16) :=
  ⟨⟨State.reset, rfl⟩, ⟨{ State.reset with sp := 15 }, rfl⟩, ⟨{ State.reset with sp := 16 }, rfl⟩⟩

/-- `SP` = 1, 16 and 0. -/
theorem witness_ReturnPopsIntoThePc :
    (∃ s : State, s.sp.val = (0 : Fin 16).val + 1) ∧ (∃ s : State, s.sp.val = (15 : Fin 16).val + 1) ∧
    (∃ s : State, s.sp.val = 0) :=
  ⟨⟨{ State.reset with sp := 1 }, rfl⟩, ⟨{ State.reset with sp := 16 }, rfl⟩, ⟨State.reset, rfl⟩⟩

/-- S11 with 15 entries taken. -/
theorem witness_CallThenReturnComesBack : ∃ (s : State) (nnn : Addr12), s.pc.toNat ≤ 4094 ∧ nnn.toNat ≤ 4094 ∧
    s.sp.val = 15 ∧ decode (wordAt s s.pc.toNat) = .instr (.call nnn) ∧ decode (wordAt s nnn.toNat) = .instr .ret :=
  ⟨withBytes (withBytes { State.reset with sp := 15 } 0x200 [0x23, 0x00]) 0x300 [0x00, 0xEE], 0x300#12, by decide⟩

theorem witness_PlainArithmeticWritesOneRegister : ∃ x : RegIndex, x ≠ 15 := ⟨14, by decide⟩

theorem witness_AdditionRecordsTheCarry : ∃ x y : RegIndex, x ≠ 15 ∧ y ≠ 15 := ⟨14, 14, by decide⟩

theorem witness_SubtractionRecordsNoBorrow : ∃ x y : RegIndex, x ≠ 15 ∧ y ≠ 15 := ⟨0, 14, by decide⟩

theorem witness_FlagIsReadFirstAndWrittenLast :
    (∃ x y : RegIndex, (x = 15 ∨ y = 15) ∧ x ≠ 15) ∧ (∃ x y : RegIndex, (x = 15 ∨ y = 15) ∧ y ≠ 15) :=
  ⟨⟨1, 15, by decide⟩, ⟨15, 1, by decide⟩⟩

/-- `I` = 80, and the last byte stored at 4095 (M9, M12). -/
theorem witness_StoreMultipleWritesTheRegisters :
    (∃ s : State, s.mem.wf = true ∧ s.idx.toNat = 80) ∧
    (∃ (x : RegIndex) (s : State), s.mem.wf = true ∧ 80 ≤ s.idx.toNat ∧ s.idx.toNat + x.val = 4095) :=
  ⟨⟨State.reset.setIdx 80#16, by decide⟩, ⟨2, State.reset.setIdx 0xFFD#16, by decide⟩⟩

/-- `I` = 80, and the last digit stored at 4095 (M24). -/
theorem witness_BcdStoresThreeDigits :
    (∃ s : State, s.mem.wf = true ∧ s.idx.toNat = 80) ∧
    (∃ s : State, s.mem.wf = true ∧ 80 ≤ s.idx.toNat ∧ s.idx.toNat + 2 = 4095) :=
  ⟨⟨State.reset.setIdx 80#16, by decide⟩, ⟨State.reset.setIdx 0xFFD#16, by decide⟩⟩

/-- The last font byte; a range that first leaves memory at 4096; an `I` above it. -/
theorem witness_StoresOutsideWritableMemoryFault :
    (∃ s : State, s.idx.toNat = 79) ∧ (∃ (x : RegIndex) (s : State), s.idx.toNat + x.val = 4096) ∧
    (∃ s : State, s.idx.toNat + 2 = 4096) ∧ (∃ s : State, s.idx.toNat = 4096) ∧ (∃ s : State, s.idx.toNat = 4097) :=
  ⟨⟨State.reset.setIdx 79#16, rfl⟩, ⟨2, State.reset.setIdx 0xFFE#16, rfl⟩, ⟨State.reset.setIdx 0xFFE#16, rfl⟩,
   ⟨State.reset.setIdx 0x1000#16, rfl⟩, ⟨State.reset.setIdx 0x1001#16, rfl⟩⟩

theorem witness_LoadMultipleReadsTheRegisters :
    (∃ (x : RegIndex) (s : State), s.idx.toNat + x.val = 4095) ∧ (∃ (x : RegIndex) (s : State), x = 15 ∧ s.idx.toNat = 0) :=
  ⟨⟨0, State.reset.setIdx 0xFFF#16, rfl⟩, ⟨15, State.reset, rfl, rfl⟩⟩

theorem witness_LoadsOutsideMemoryFault :
    (∃ (x : RegIndex) (s : State), s.idx.toNat + x.val = 4096) ∧
    (∃ (n : RowCount) (s : State), n.val = 1 ∧ s.idx.toNat + n.val = 4097) ∧
    (∃ (n : RowCount) (s : State), n.val = 15 ∧ s.idx.toNat + n.val = 4097) :=
  ⟨⟨1, State.reset.setIdx 0xFFF#16, rfl⟩, ⟨1, State.reset.setIdx 0x1000#16, rfl, rfl⟩,
   ⟨15, State.reset.setIdx 0xFF2#16, rfl, rfl⟩⟩

/-- Bytes across the end of the font, and up to the end of memory. -/
theorem witness_FontPoliciesIgnoreAndStore :
    (∃ (vals : List Byte) (s : State), s.mem.wf = true ∧ s.idx.toNat = 79 ∧ vals.length = 2) ∧
    (∃ (vals : List Byte) (s : State), s.mem.wf = true ∧ s.idx.toNat + vals.length = 4096) :=
  ⟨⟨[1, 2], State.reset.setIdx 79#16, by decide⟩, ⟨[1, 2], State.reset.setIdx 0xFFE#16, by decide⟩⟩

theorem witness_StoredWordIsFetchedNext :
    ∃ (x : RegIndex) (s t : State), s.mem.wf = true ∧ x.val = 1 ∧ exec (.stm x) s = .next t :=
  ⟨1, State.reset.setIdx 0xFFE#16, _, by decide, rfl, rfl⟩

/-- `n` = 0 with `I` outside memory (W6), and a sprite that ends at 4095 (W8); a pixel it covers and one it does not. -/
theorem witness_DrawInvertsTheCoveredPixels :
    (∃ (n : RowCount) (s : State), n.val = 0 ∧ s.idx.toNat = 0x2000) ∧
    (∃ (n : RowCount) (s : State), n.val = 1 ∧ s.idx.toNat + n.val = 4096 ∧ SpriteCovers s 0 0 n.val 7 0 ∧
      ¬ SpriteCovers s 0 0 n.val 7 1) := by
  refine ⟨⟨0, State.reset.setIdx 0x2000#16, rfl, rfl⟩,
    ⟨1, (withBytes State.reset 0xFFF [0x81]).setIdx 0xFFF#16, rfl, rfl, ⟨0, 7, by decide, by decide, by decide, rfl, rfl⟩, ?_⟩⟩
  rintro ⟨r, c, hr, -, -, -, h⟩
  have : r = 0 := by simpa using hr
  subst this
  exact absurd h (by decide)

/-- A draw without a collision, and a draw with one (S9). -/
theorem witness_DrawFlagIsTheUnionOfCollisions :
    (∃ (s t : State), exec (.drw 0 0 1) s = .next t ∧ s.fb.pixel 0 0 = true ∧ t.fb.pixel 0 0 = false) ∧
    (∃ (s t : State), exec (.drw 0 0 0) s = .next t ∧ ¬ ∃ col row, s.fb.pixel col row = true ∧ t.fb.pixel col row = false) :=
  ⟨⟨State.reset.setFb (State.reset.fb.setPixel 0 0 true), _, rfl, by decide, by decide⟩,
   ⟨State.reset, _, rfl, fun ⟨_, _, h1, h2⟩ => Bool.noConfusion (h1.symm.trans h2)⟩⟩

theorem witness_DrawingTwiceRestoresTheScreen : ∃ (x y : RegIndex) (n : RowCount) (s t : State),
    x ≠ 15 ∧ y ≠ 15 ∧ exec (.drw x y n) s = .next t ∧ t.fb.pixel 0 0 ≠ s.fb.pixel 0 0 :=
  ⟨14, 0, 5, State.reset, _, by decide, by decide, rfl, by decide⟩

/-- The last key, pressed and not, and the first value that is no key. -/
theorem witness_KeySkipsAndKeyFaults :
    (∃ s : State, (s.reg 5).toNat = (15 : Fin 16).val ∧ s.key[15] = true) ∧
    (∃ s : State, (s.reg 5).toNat = (15 : Fin 16).val ∧ s.key[15] = false) ∧ (∃ s : State, (s.reg 5).toNat = 16) :=
  ⟨⟨(State.reset.setReg 5 15#8).setKeyFlag 15 true, by decide⟩, ⟨State.reset.setReg 5 15#8, by decide⟩,
   ⟨State.reset.setReg 5 16#8, by decide⟩⟩

theorem witness_KeyWaitTakesTheLowestOrRewinds :
    (∃ (k : Fin 16) (s : State), k = 15 ∧ s.key[k.val] = true ∧ ∀ j : Fin 16, j < k → s.key[j.val] = false) ∧
    (∃ s : State, ∀ k : Fin 16, s.key[k.val] = false) :=
  ⟨⟨15, State.reset.setKeyFlag 15 true, by decide⟩, ⟨State.reset, by decide⟩⟩

/-- P1's last word, `120C` at 0x20C, and the last address that can hold such a jump. -/
theorem witness_JumpToSelfIsFinal :
    (∃ s : State, s.pc = 0x20C#16 ∧ Finished s) ∧ (∃ s : State, s.pc = 0xFFE#16 ∧ Finished s) :=
  ⟨⟨({ State.reset with pc := 0x20C#16 } : State).withFetchWord 16 0x120C, rfl, by decide, rfl⟩,
   ⟨({ State.reset with pc := 0xFFE#16 } : State).withFetchWord 16 0x1FFE, rfl, by decide, rfl⟩⟩

theorem witness_SetKeyWritesOneFlag : ∃ index k : Fin 16, k ≠ index := ⟨0, 15, by decide⟩

/-- The longest image and the shortest. -/
theorem witness_LoadCopiesTheImage :
    (∃ (bytes : List Byte) (s : State), s.mem.wf = true ∧ bytes.length = 3584) ∧
    (∃ (bytes : List Byte) (s : State), s.mem.wf = true ∧ bytes.length = 0) :=
  ⟨⟨List.replicate 3584 0xAA, State.reset, rfl, List.length_replicate⟩, ⟨[], State.reset, rfl, rfl⟩⟩

theorem witness_LoadTooLargeWritesNothing : ∃ bytes : List Byte, bytes.length = 3585 :=
  ⟨List.replicate 3585 0, List.length_replicate⟩

/-- The last address below the program area. -/
theorem witness_OperationsChangeOnlyWhatTheyMay : ∃ a : Nat, a < 0x200 ∧ ¬ a + 1 < 0x200 := ⟨0x1FF, by decide⟩

/-- A state in the middle of a run: one return address on the stack, a program byte in memory. -/
def running : State :=
  withBytes { State.reset with sp := 1, stack := State.reset.stack.set 0 0x1000#16, pc := 0xFFE#16 } 0xFFE [0x00, 0xEE]

theorem running_meets_the_invariant : Invariant running where
  memory := rfl
  font := by unfold FontIntact; decide
  stack := by unfold StackBounded; decide
  pc := by unfold PcBounded; decide

theorem witness_InvariantKeptByEveryStep : ∃ s t : State, Invariant s ∧ step s = .next t :=
  ⟨running, _, running_meets_the_invariant, rfl⟩

theorem witness_InvariantKeptByEveryOperation : ∃ (op : Operation) (s : State), Invariant s ∧ op = .step 0 :=
  ⟨.step 0, running, running_meets_the_invariant, rfl⟩

end Sys2Proof.Tests
end

/-! ### Frames: what each update, instruction and operation changes -/

namespace Sys2Proof.Machine

/-! #### The rules of `OnlyChanges` -/

theorem SamePart.refl (s : State) (p : Part) : SamePart s s p := by
  cases p <;> simp [SamePart]

theorem SamePart.trans {s t u : State} {p : Part} (hst : SamePart s t p) (htu : SamePart t u p) : SamePart s u p := by
  cases p <;> simp_all [SamePart]

theorem OnlyChanges.refl (ps : List Part) (s : State) : OnlyChanges ps s s := fun p _ => SamePart.refl s p

theorem OnlyChanges.mono {ps qs : List Part} {s t : State} (h : OnlyChanges ps s t) (hsub : ps ⊆ qs) :
    OnlyChanges qs s t := fun p hp => h p fun hmem => hp (hsub hmem)

theorem OnlyChanges.trans {ps : List Part} {s t u : State} (hst : OnlyChanges ps s t) (htu : OnlyChanges ps t u) :
    OnlyChanges ps s u := fun p hp => (hst p hp).trans (htu p hp)

/-! #### One rule per update of the state -/

theorem onlyChanges_setRegs (s : State) (v : Vector Byte 16) : OnlyChanges [.regs] s (s.setRegs v) := fun p hp => by
  cases p <;> simp_all [SamePart]

theorem onlyChanges_setReg (s : State) (r : RegIndex) (v : Byte) : OnlyChanges [.regs] s (s.setReg r v) :=
  onlyChanges_setRegs s _

theorem onlyChanges_setFlag (s : State) (b : Bool) : OnlyChanges [.regs] s (s.setFlag b) :=
  onlyChanges_setRegs s _

theorem onlyChanges_setIdx (s : State) (v : Word) : OnlyChanges [.idx] s (s.setIdx v) := fun p hp => by
  cases p <;> simp_all [SamePart]

theorem onlyChanges_setPc (s : State) (v : Word) : OnlyChanges [.pc] s (s.setPc v) := fun p hp => by
  cases p <;> simp_all [SamePart]

theorem onlyChanges_advance (s : State) : OnlyChanges [.pc] s s.advance := onlyChanges_setPc s _

theorem onlyChanges_skipIf (s : State) (c : Bool) : OnlyChanges [.pc] s (s.skipIf c) := by
  cases c
  case false => exact .refl _ s
  case true => exact onlyChanges_setPc s _

theorem onlyChanges_setMem (s : State) (m : Memory) : OnlyChanges [.mem] s (s.setMem m) := fun p hp => by
  cases p <;> simp_all [SamePart]

theorem onlyChanges_setFb (s : State) (fb : Framebuffer) : OnlyChanges [.fb] s (s.setFb fb) := fun p hp => by
  cases p <;> simp_all [SamePart]

theorem onlyChanges_setDt (s : State) (v : Byte) : OnlyChanges [.dt] s (s.setDt v) := fun p hp => by
  cases p <;> simp_all [SamePart]

theorem onlyChanges_setSt (s : State) (v : Byte) : OnlyChanges [.st] s (s.setSt v) := fun p hp => by
  cases p <;> simp_all [SamePart]

theorem onlyChanges_setKeyFlag (s : State) (k : Fin 16) (pressed : Bool) :
    OnlyChanges [.key] s (s.setKeyFlag k pressed) := fun p hp => by
  cases p <;> simp_all [SamePart]

theorem onlyChanges_countDraw (s : State) : OnlyChanges [.draws] s s.countDraw := fun p hp => by
  cases p <;> simp_all [SamePart]

theorem onlyChanges_of_push? {s t : State} {v : Word} (h : s.push? v = some t) : OnlyChanges [.stack] s t := by
  obtain ⟨-, -, -, hmem, hx, hidx, hpc, hfb, hkey, hdt, hst, hdraws⟩ := State.push?_eq_some h
  intro p hp
  cases p <;> simp_all [SamePart, State.reg_eq_of_x hx]

theorem onlyChanges_of_pop? {s t : State} {v : Word} (h : s.pop? = some (v, t)) : OnlyChanges [.stack] s t := by
  obtain ⟨-, -, -, -, -, hmem, hx, hidx, hpc, hfb, hkey, hdt, hst, hdraws⟩ := State.pop?_eq_some h
  intro p hp
  cases p <;> simp_all [SamePart, State.reg_eq_of_x hx]

/-! #### Frames of a result -/

/-- If the result goes on, it goes on with a state that differs from `s` in the listed parts alone. -/
def ResultOnlyChanges (ps : List Part) (s : State) (r : Result) : Prop := ∀ t, r = .next t → OnlyChanges ps s t

theorem ResultOnlyChanges.next {ps : List Part} {s t : State} (h : OnlyChanges ps s t) :
    ResultOnlyChanges ps s (.next t) := by
  rintro _ ⟨⟩
  exact h

theorem ResultOnlyChanges.fault (ps : List Part) (s : State) (f : Fault) : ResultOnlyChanges ps s (.fault f) := nofun

theorem ResultOnlyChanges.mono {ps qs : List Part} {s : State} {r : Result} (h : ResultOnlyChanges ps s r)
    (hsub : ps ⊆ qs) : ResultOnlyChanges qs s r := fun t ht => (h t ht).mono hsub

/-- What comes before a result and what the result changes, together. -/
theorem OnlyChanges.trans_result {ps : List Part} {s t : State} {r : Result} (hst : OnlyChanges ps s t)
    (hr : ResultOnlyChanges ps t r) : ResultOnlyChanges ps s r := fun u hu => hst.trans (hr u hu)

/-- An operation that fails has changed nothing (60_exceptions R213), so its frame is that of its result. -/
theorem ResultOnlyChanges.settle {ps : List Part} {s : State} {r : Result} (h : ResultOnlyChanges ps s r) :
    OnlyChanges ps s (settle s r).1 := by
  cases r with
  | next t => exact h t rfl
  | fault f => exact .refl ps s
  | refused r => exact .refl ps s

/-! #### The shared operations and the instructions with more than one outcome -/

theorem writeResultAndFlag_onlyChanges (x : RegIndex) (v : Byte) (flag : Bool) (s : State) :
    ResultOnlyChanges [.regs] s (writeResultAndFlag x v flag s) :=
  .next ((onlyChanges_setReg s x v).trans (onlyChanges_setFlag _ flag))

theorem storeThroughIndex_onlyChanges (p : FontWritePolicy) (i : Instr) (vals : List Byte) (s : State) :
    ResultOnlyChanges [.mem] s (storeThroughIndex p i vals s) := by
  obtain ⟨-, hnext⟩ | ⟨k, b, -, hfault⟩ := storeThroughIndex_cases p i vals s
  · exact hnext ▸ .next (onlyChanges_setMem s _)
  · exact hfault ▸ .fault _ s _

theorem loadThroughIndex_onlyChanges {ps : List Part} {s : State} {use : List Byte → State}
    (huse : ∀ bytes, OnlyChanges ps s (use bytes)) (i : Instr) (n : Nat) :
    ResultOnlyChanges ps s (loadThroughIndex i n s use) := by
  obtain ⟨-, hnext⟩ | ⟨-, -, hfault⟩ := loadThroughIndex_cases i n s use
  · exact hnext ▸ .next (huse _)
  · exact hfault ▸ .fault _ s _

theorem execCall_onlyChanges (nnn : Addr12) (s : State) : ResultOnlyChanges [.pc, .stack] s (execCall nnn s) := by
  unfold execCall
  split
  next t hpush =>
    exact .next (((onlyChanges_of_push? hpush).mono (by simp)).trans ((onlyChanges_setPc t _).mono (by simp)))
  next => exact .fault _ s _

theorem execRet_onlyChanges (s : State) : ResultOnlyChanges [.pc, .stack] s (execRet s) := by
  unfold execRet
  split
  next v t hpop =>
    exact .next (((onlyChanges_of_pop? hpop).mono (by simp)).trans ((onlyChanges_setPc t v).mono (by simp)))
  next => exact .fault _ s _

theorem execSkp_onlyChanges (x : RegIndex) (s : State) : ResultOnlyChanges [.pc] s (execSkp x s) := by
  unfold execSkp
  split
  next => exact .next (onlyChanges_skipIf s _)
  next => exact .fault _ s _

theorem execSknp_onlyChanges (x : RegIndex) (s : State) : ResultOnlyChanges [.pc] s (execSknp x s) := by
  unfold execSknp
  split
  next => exact .next (onlyChanges_skipIf s _)
  next => exact .fault _ s _

theorem execWkey_onlyChanges (x : RegIndex) (s : State) : ResultOnlyChanges [.regs, .pc] s (execWkey x s) := by
  unfold execWkey
  split
  next => exact .next ((onlyChanges_setReg s x _).mono (by simp))
  next => exact .next ((onlyChanges_setPc s _).mono (by simp))

theorem rndWith_onlyChanges (rnd : Byte) (x : RegIndex) (kk : Byte) (s : State) :
    ResultOnlyChanges [.regs, .draws] s (rndWith rnd x kk s) :=
  .next (((onlyChanges_setReg s x _).mono (by simp)).trans ((onlyChanges_countDraw _).mono (by simp)))

theorem execDrw_onlyChanges (x y : RegIndex) (n : RowCount) (s : State) :
    ResultOnlyChanges [.fb, .regs] s (execDrw x y n s) :=
  loadThroughIndex_onlyChanges
    (fun _ => ((onlyChanges_setFb s _).mono (by simp)).trans ((onlyChanges_setFlag _ _).mono (by simp))) _ _

/-! #### Every instruction and every operation -/

/-- An instruction that completes changes only the parts of `mayChange`. -/
theorem exec_onlyChanges (i : Instr) (s : State) : ResultOnlyChanges (mayChange i) s (exec i s) := by
  cases i with
  | nop => exact .next (.refl _ s)
  | cls => exact .next (onlyChanges_setFb s _)
  | ret => exact execRet_onlyChanges s
  | jp nnn => exact .next (onlyChanges_setPc s _)
  | call nnn => exact execCall_onlyChanges nnn s
  | seb x kk => exact .next (onlyChanges_skipIf s _)
  | sneb x kk => exact .next (onlyChanges_skipIf s _)
  | se x y => exact .next (onlyChanges_skipIf s _)
  | ldb x kk => exact .next (onlyChanges_setReg s x _)
  | addb x kk => exact .next (onlyChanges_setReg s x _)
  | mov x y => exact .next (onlyChanges_setReg s x _)
  | or x y => exact .next (onlyChanges_setReg s x _)
  | and x y => exact .next (onlyChanges_setReg s x _)
  | xor x y => exact .next (onlyChanges_setReg s x _)
  | add x y => exact writeResultAndFlag_onlyChanges x _ _ s
  | sub x y => exact writeResultAndFlag_onlyChanges x _ _ s
  | shr x => exact writeResultAndFlag_onlyChanges x _ _ s
  | subn x y => exact writeResultAndFlag_onlyChanges x _ _ s
  | shl x => exact writeResultAndFlag_onlyChanges x _ _ s
  | sne x y => exact .next (onlyChanges_skipIf s _)
  | ldi nnn => exact .next (onlyChanges_setIdx s _)
  | jpv0 nnn => exact .next (onlyChanges_setPc s _)
  | rnd x kk => exact rndWith_onlyChanges _ x kk s
  | drw x y n => exact execDrw_onlyChanges x y n s
  | skp x => exact execSkp_onlyChanges x s
  | sknp x => exact execSknp_onlyChanges x s
  | lddt x => exact .next (onlyChanges_setReg s x _)
  | wkey x => exact execWkey_onlyChanges x s
  | stdt x => exact .next (onlyChanges_setDt s _)
  | stst x => exact .next (onlyChanges_setSt s _)
  | addi x => exact .next (onlyChanges_setIdx s _)
  | ldf x => exact .next (onlyChanges_setIdx s _)
  | bcd x => exact storeThroughIndex_onlyChanges _ _ _ s
  | stm x => exact storeThroughIndex_onlyChanges _ _ _ s
  | ldm x => exact loadThroughIndex_onlyChanges (fun _ => onlyChanges_setRegs s _) _ _

/-- Naming STEP's random byte does not widen what an instruction may change. -/
theorem execWith_onlyChanges (rnd : Byte) (i : Instr) (s : State) :
    ResultOnlyChanges (mayChange i) s (execWith rnd i s) := by
  unfold execWith
  split
  next x kk => exact rndWith_onlyChanges rnd x kk s
  next => exact exec_onlyChanges _ s

/-- No instruction may change a key: the keys belong to SETKEY (60_exceptions R225). -/
theorem key_notMem_mayChange (i : Instr) : Part.key ∉ mayChange i := by
  cases i <;> simp [mayChange]

theorem mem_operationMayChange_step {rnd : Byte} {p : Part} : p ∈ operationMayChange (.step rnd) ↔ p ≠ .key := by
  cases p <;> simp [operationMayChange]

theorem mayChange_subset_operationMayChange_step (i : Instr) (rnd : Byte) :
    mayChange i ⊆ operationMayChange (.step rnd) := fun _ hp =>
  mem_operationMayChange_step.mpr (ne_of_mem_of_not_mem hp (key_notMem_mayChange i))

theorem stepWith_onlyChanges (rnd : Byte) (s : State) :
    ResultOnlyChanges (operationMayChange (.step rnd)) s (stepWith rnd s) := by
  have hadvance : OnlyChanges (operationMayChange (.step rnd)) s s.advance :=
    (onlyChanges_advance s).mono (by simp [operationMayChange])
  unfold stepWith
  split
  next f _ => exact .fault _ s f
  next w _ =>
    split
    next word _ => exact .fault _ s _
    next i _ =>
      exact hadvance.trans_result
        ((execWith_onlyChanges rnd i s.advance).mono (mayChange_subset_operationMayChange_step i rnd))

theorem load_onlyChanges (bytes : List Byte) (s : State) : ResultOnlyChanges [.mem] s (load bytes s) := by
  unfold load
  split
  next => exact .fault _ s _
  next => exact .next (onlyChanges_setMem s _)

/-- LOAD, done or failed, leaves every byte below 0x200 alone (70_reset R253, R254). -/
theorem operate_load_mem_read_of_lt (bytes : List Byte) (s : State) {a : Nat} (ha : a < 0x200) :
    (operate (.load bytes) s).1.mem.read a = s.mem.read a := by
  change (settle s (load bytes s)).1.mem.read a = s.mem.read a
  unfold load
  split
  next => rfl
  next => exact Memory.read_writeBytes_of_lt ha s.mem bytes

theorem tick_onlyChanges (s : State) : OnlyChanges [.dt, .st] s (tick s) :=
  ((onlyChanges_setDt s _).mono (by simp)).trans ((onlyChanges_setSt _ _).mono (by simp))

/-- RESET keeps the one part that is the model's own, the draw counter (log 26). -/
theorem doReset_onlyChanges (s : State) : OnlyChanges (operationMayChange .reset) s (doReset s) := fun p hp => by
  have hdraws : p = .draws := by cases p <;> simp_all [operationMayChange]
  exact hdraws ▸ rfl

theorem operate_onlyChanges (op : Operation) (s : State) : OnlyChanges (operationMayChange op) s (operate op s).1 := by
  cases op with
  | reset => exact doReset_onlyChanges s
  | load bytes => exact (load_onlyChanges bytes s).settle
  | step rnd => exact (stepWith_onlyChanges rnd s).settle
  | tick => exact tick_onlyChanges s
  | setKey index pressed => exact onlyChanges_setKeyFlag s index pressed
  | readFb => exact .refl _ s

/-- Settles O56: the frame of each operation comes from the frames of the state's updates, STEP's through the frame of
every instruction, and LOAD writes from 0x200 up. -/
theorem operationsChangeOnlyWhatTheyMay : Obligations.OperationsChangeOnlyWhatTheyMay :=
  ⟨operate_onlyChanges, fun bytes s _ ha => operate_load_mem_read_of_lt bytes s ha⟩

end Sys2Proof.Machine

/-! ### The register frame and the invariant of the machine (10_state R22, R24, R35) -/

namespace Sys2Proof.Machine

/-! #### What holds of every state a result goes on with -/

/-- If the result goes on, it goes on with a state that satisfies `P`; `ResultOnlyChanges ps s` is the case
`P = OnlyChanges ps s`. -/
def ResultSatisfies (P : State → Prop) (r : Result) : Prop := ∀ t, r = .next t → P t

theorem ResultSatisfies.next {P : State → Prop} {t : State} (h : P t) : ResultSatisfies P (.next t) := by
  rintro _ ⟨⟩
  exact h

theorem ResultSatisfies.fault (P : State → Prop) (f : Fault) : ResultSatisfies P (.fault f) := nofun

/-- A failed operation keeps the state it began with (60_exceptions R213), so `P` has to hold there and after success. -/
theorem ResultSatisfies.settle {P : State → Prop} {s : State} {r : Result} (hs : P s) (h : ResultSatisfies P r) :
    P (settle s r).1 := by
  cases r with
  | next t => exact h t rfl
  | fault f => exact hs
  | refused r => exact hs

theorem loadThroughIndex_satisfies {P : State → Prop} {n : Nat} {use : List Byte → State}
    (huse : ∀ bytes, bytes.length = n → P (use bytes)) (i : Instr) (s : State) :
    ResultSatisfies P (loadThroughIndex i n s use) := by
  obtain ⟨-, hnext⟩ | ⟨-, -, hfault⟩ := loadThroughIndex_cases i n s use
  · exact hnext ▸ .next (huse _ (Memory.readBytes_length _ _ _))
  · exact hfault ▸ .fault P _

/-! #### The registers an instruction leaves alone -/

theorem State.setReg_reg_of_ne (s : State) {x r : RegIndex} (h : r ≠ x) (v : Byte) :
    (s.setReg x v).reg r = s.reg r := by
  simp [h]

theorem State.setFlag_reg_of_ne (s : State) {r : RegIndex} (h : r ≠ 15) (b : Bool) : (s.setFlag b).reg r = s.reg r :=
  s.setReg_reg_of_ne h _

theorem writeResultAndFlag_keeps_reg {x r : RegIndex} (h : (r == x || r == 15) = false) (v : Byte) (flag : Bool)
    (s : State) : ResultSatisfies (fun t => t.reg r = s.reg r) (writeResultAndFlag x v flag s) := by
  obtain ⟨hx, hflag⟩ : r ≠ x ∧ r ≠ 15 := by simpa using h
  exact .next ((State.setFlag_reg_of_ne _ hflag flag).trans (s.setReg_reg_of_ne hx v))

theorem execDrw_keeps_reg {r : RegIndex} (h : r ≠ 15) (x y : RegIndex) (n : RowCount) (s : State) :
    ResultSatisfies (fun t => t.reg r = s.reg r) (execDrw x y n s) :=
  loadThroughIndex_satisfies (fun _ _ => State.setFlag_reg_of_ne _ h _) _ s

theorem execWkey_keeps_reg {x r : RegIndex} (h : r ≠ x) (s : State) :
    ResultSatisfies (fun t => t.reg r = s.reg r) (execWkey x s) := by
  unfold execWkey
  split
  next k _ => exact .next (s.setReg_reg_of_ne h _)
  next => exact .next (s.setPc_reg _ r)

/-- LDM reaches the registers up to X and none above (42_memory_index R145). -/
theorem execLdm_keeps_reg {x r : RegIndex} (h : x < r) (s : State) :
    ResultSatisfies (fun t => t.reg r = s.reg r) (execLdm x s) := by
  refine loadThroughIndex_satisfies (fun bytes hlen => ?_) _ s
  have habove : ¬ (0 ≤ r.val ∧ r.val < 0 + bytes.length) := by
    have := Fin.lt_def.mp h
    omega
  rw [State.setRegs_reg, getElem_loadRegs _ _ _ _ r.isLt, dif_neg habove, State.reg]

/-- The instructions that write no register at all keep them by their frame; the others write only what `mayWriteReg`
names. -/
theorem exec_keeps_reg {i : Instr} {r : RegIndex} (h : mayWriteReg i r = false) (s : State) :
    ResultSatisfies (fun t => t.reg r = s.reg r) (exec i s) := by
  cases i with
  | ldb | addb | mov | or | and | xor | lddt => exact .next (s.setReg_reg_of_ne (ne_of_beq_false h) _)
  | add | sub | shr | subn | shl => exact writeResultAndFlag_keeps_reg h _ _ s
  | rnd => exact .next (s.setReg_reg_of_ne (ne_of_beq_false h) _)
  | drw x y n => exact execDrw_keeps_reg (ne_of_beq_false h) x y n s
  | wkey => exact execWkey_keeps_reg (ne_of_beq_false h) s
  | ldm => exact execLdm_keeps_reg (not_le.mp (of_decide_eq_false h)) s
  | _ => exact fun t ht => exec_onlyChanges _ s t ht .regs (by simp [mayChange]) r

/-- Settles O16: no instruction writes a register outside `mayWriteReg`. -/
theorem otherRegistersKeepTheirValue : Obligations.OtherRegistersKeepTheirValue :=
  fun _ s t _ hexec hfree => exec_keeps_reg hfree s t hexec

/-! #### The invariant under the updates of the state -/

/-- With memory and `PC` as they were, only the stack's bound is left to show. -/
theorem Invariant.of_stackBounded {s t : State} (h : Invariant s) (hmem : t.mem = s.mem) (hpc : t.pc = s.pc)
    (hstack : StackBounded t) : Invariant t where
  memory := hmem ▸ h.memory
  font := fun a ha => hmem ▸ h.font a ha
  stack := hstack
  pc := by simpa only [PcBounded, hpc] using h.pc

/-- The invariant speaks of memory, the stack with its pointer, and `PC`, and of nothing else. -/
theorem Invariant.of_eq {s t : State} (h : Invariant s) (hmem : t.mem = s.mem) (hstack : t.stack = s.stack)
    (hsp : t.sp = s.sp) (hpc : t.pc = s.pc) : Invariant t :=
  h.of_stackBounded hmem hpc fun k hk => by
    rw [hsp] at hk
    simpa only [hstack] using h.stack k hk

theorem Invariant.setReg {s : State} (h : Invariant s) (r : RegIndex) (v : Byte) : Invariant (s.setReg r v) :=
  h.of_eq rfl rfl rfl rfl

theorem Invariant.setFlag {s : State} (h : Invariant s) (b : Bool) : Invariant (s.setFlag b) :=
  h.setReg _ _

theorem Invariant.setRegs {s : State} (h : Invariant s) (v : Vector Byte 16) : Invariant (s.setRegs v) :=
  h.of_eq rfl rfl rfl rfl

theorem Invariant.setIdx {s : State} (h : Invariant s) (v : Word) : Invariant (s.setIdx v) :=
  h.of_eq rfl rfl rfl rfl

theorem Invariant.setFb {s : State} (h : Invariant s) (fb : Framebuffer) : Invariant (s.setFb fb) :=
  h.of_eq rfl rfl rfl rfl

theorem Invariant.setDt {s : State} (h : Invariant s) (v : Byte) : Invariant (s.setDt v) :=
  h.of_eq rfl rfl rfl rfl

theorem Invariant.setSt {s : State} (h : Invariant s) (v : Byte) : Invariant (s.setSt v) :=
  h.of_eq rfl rfl rfl rfl

theorem Invariant.setKeyFlag {s : State} (h : Invariant s) (k : Fin 16) (pressed : Bool) :
    Invariant (s.setKeyFlag k pressed) := h.of_eq rfl rfl rfl rfl

theorem Invariant.countDraw {s : State} (h : Invariant s) : Invariant s.countDraw := h.of_eq rfl rfl rfl rfl

theorem Invariant.setPc {s : State} (h : Invariant s) {v : Word} (hv : v.toNat ≤ 0x10FE) : Invariant (s.setPc v) where
  memory := h.memory
  font := h.font
  stack := h.stack
  pc := hv

/-- Bytes written above the font keep the canonical form and the font. -/
theorem Invariant.writeBytes {s : State} (h : Invariant s) {a : Nat} (ha : Config.fontLen ≤ a) (vs : List Byte) :
    Invariant (s.setMem (s.mem.writeBytes a vs)) where
  memory := Memory.writeBytes_wf h.memory a vs
  font := fun b hb => (Memory.read_writeBytes_of_lt (hb.trans_le ha) s.mem vs).trans (h.font b hb)
  stack := h.stack
  pc := h.pc

/-- CALL keeps every valid entry at most 4096 by pushing no more than that (10_state R24). -/
theorem Invariant.push? {s t : State} (h : Invariant s) {v : Word} (hv : v.toNat ≤ 4096)
    (hpush : s.push? v = some t) : Invariant t := by
  obtain ⟨-, hsp, hstack, hmem, -, -, hpc, -⟩ := State.push?_eq_some hpush
  refine h.of_stackBounded hmem hpc fun k hk => ?_
  rw [hstack k]
  split
  next => exact hv
  next hne => exact h.stack k (by omega)

/-- The popped entry was valid, so it is at most 4096; the entries that stay valid were valid before. -/
theorem Invariant.pop? {s t : State} (h : Invariant s) {v : Word} (hpop : s.pop? = some (v, t)) :
    v.toNat ≤ 4096 ∧ Invariant t := by
  obtain ⟨top, hsp, htsp, rfl, hstack, hmem, -, -, hpc, -⟩ := State.pop?_eq_some hpop
  refine ⟨h.stack top (by omega), h.of_stackBounded hmem hpc fun k hk => ?_⟩
  simpa only [hstack] using h.stack k (by omega)

/-! #### The state an instruction meets -/

/-- What the fetch phase hands to an instruction: the invariant, and `PC` advanced past a word inside memory
(30_encoding R71, R72). Both bounds are needed: CALL pushes this `PC` and WKEY takes 2 from it. -/
structure AfterFetch (s : State) : Prop extends Invariant s where
  two_le_pc : 2 ≤ s.pc.toNat
  pc_le : s.pc.toNat ≤ 4096

theorem pc_le_of_fetch_eq_ok {s : State} {w : Word} (h : fetch s = .ok w) : s.pc.toNat ≤ 4094 := by
  unfold fetch at h
  split at h
  next => cases h
  next hnone =>
    have := firstFailing_read_eq_none.mp hnone
    omega

theorem Invariant.afterFetch {s : State} (h : Invariant s) {w : Word} (hfetch : fetch s = .ok w) :
    AfterFetch s.advance := by
  have hpc := pc_le_of_fetch_eq_ok hfetch
  have hadvance : (s.pc + 2).toNat = s.pc.toNat + 2 := by bv_omega
  exact ⟨h.setPc (by omega), by rw [State.advance_pc]; omega, by rw [State.advance_pc]; omega⟩

/-- A skip from a `PC` of at most 4096 stays far below 0x10FE. -/
theorem AfterFetch.skipIf {s : State} (h : AfterFetch s) (c : Bool) : Invariant (s.skipIf c) := by
  have hpc := h.pc_le
  cases c
  case false => exact h.toInvariant
  case true => exact h.toInvariant.setPc (by bv_omega)

/-! #### The invariant after each instruction -/

theorem Addr12.toWord_toNat (nnn : Addr12) : nnn.toWord.toNat = nnn.toNat := by
  have := nnn.isLt
  simp only [Addr12.toWord, BitVec.toNat_setWidth]
  omega

theorem Invariant.setPc_toWord {s : State} (h : Invariant s) (nnn : Addr12) : Invariant (s.setPc nnn.toWord) :=
  h.setPc (by have := nnn.isLt; rw [Addr12.toWord_toNat]; omega)

/-- JPV0 reaches the highest `PC` there is, 0xFFF + 0xFF (10_state R24). -/
theorem execJpv0_keeps_invariant {s : State} (h : Invariant s) (nnn : Addr12) :
    ResultSatisfies Invariant (execJpv0 nnn s) := by
  refine .next (h.setPc ?_)
  have hnnn := nnn.isLt
  have hreg := (s.reg 0).isLt
  rw [BitVec.toNat_add, Addr12.toWord_toNat, BitVec.toNat_setWidth]
  omega

theorem execCall_keeps_invariant {s : State} (h : AfterFetch s) (nnn : Addr12) :
    ResultSatisfies Invariant (execCall nnn s) := by
  unfold execCall
  split
  next t hpush => exact .next ((h.push? h.pc_le hpush).setPc_toWord nnn)
  next => exact .fault _ _

theorem execRet_keeps_invariant {s : State} (h : Invariant s) : ResultSatisfies Invariant (execRet s) := by
  unfold execRet
  split
  next v t hpop =>
    obtain ⟨hv, ht⟩ := h.pop? hpop
    exact .next (ht.setPc (by omega))
  next => exact .fault _ _

theorem execSkp_keeps_invariant {s : State} (h : AfterFetch s) (x : RegIndex) :
    ResultSatisfies Invariant (execSkp x s) := by
  unfold execSkp
  split
  next => exact .next (h.skipIf _)
  next => exact .fault _ _

theorem execSknp_keeps_invariant {s : State} (h : AfterFetch s) (x : RegIndex) :
    ResultSatisfies Invariant (execSknp x s) := by
  unfold execSknp
  split
  next => exact .next (h.skipIf _)
  next => exact .fault _ _

/-- WKEY's rewind goes back to the address of the instruction, not around the end of the 16-bit `PC`. -/
theorem execWkey_keeps_invariant {s : State} (h : AfterFetch s) (x : RegIndex) :
    ResultSatisfies Invariant (execWkey x s) := by
  have htwo := h.two_le_pc
  have hpc := h.pc_le
  unfold execWkey
  split
  next => exact .next (h.setReg x _)
  next => exact .next (h.setPc (by bv_omega))

theorem writeResultAndFlag_keeps_invariant {s : State} (h : Invariant s) (x : RegIndex) (v : Byte) (flag : Bool) :
    ResultSatisfies Invariant (writeResultAndFlag x v flag s) := .next ((h.setReg x v).setFlag flag)

theorem rndWith_keeps_invariant {s : State} (h : Invariant s) (rnd : Byte) (x : RegIndex) (kk : Byte) :
    ResultSatisfies Invariant (rndWith rnd x kk s) := .next (h.setReg x _).countDraw

/-- Under the policy `fault` a store that goes through is empty or above the font (20_memory R54, D11). -/
theorem storeThroughIndex_keeps_invariant {s : State} (h : Invariant s) (i : Instr) (vals : List Byte) :
    ResultSatisfies Invariant (storeThroughIndex Params.fontWritePolicy i vals s) := by
  obtain ⟨hrange, hnext⟩ | ⟨k, b, -, hfault⟩ := storeThroughIndex_cases Params.fontWritePolicy i vals s
  · rw [hnext, storeBytes_eq_writeBytes (p := Params.fontWritePolicy) (.inl (by decide))]
    obtain hempty | ⟨-, habove⟩ := hrange
    · exact List.length_eq_zero_iff.mp hempty ▸ .next h
    · exact .next (h.writeBytes (habove rfl) vals)
  · exact hfault ▸ .fault _ _

/-- Every instruction, on the state the fetch phase hands to it, ends in a state that meets the invariant. -/
theorem exec_keeps_invariant {s : State} (h : AfterFetch s) (i : Instr) : ResultSatisfies Invariant (exec i s) := by
  have hinv := h.toInvariant
  cases i with
  | nop => exact .next hinv
  | cls => exact .next (hinv.setFb _)
  | ret => exact execRet_keeps_invariant hinv
  | jp nnn => exact .next (hinv.setPc_toWord nnn)
  | call nnn => exact execCall_keeps_invariant h nnn
  | jpv0 nnn => exact execJpv0_keeps_invariant hinv nnn
  | seb | sneb | se | sne => exact .next (h.skipIf _)
  | skp x => exact execSkp_keeps_invariant h x
  | sknp x => exact execSknp_keeps_invariant h x
  | wkey x => exact execWkey_keeps_invariant h x
  | ldb | addb | mov | or | and | xor | lddt => exact .next (hinv.setReg _ _)
  | add | sub | shr | subn | shl => exact writeResultAndFlag_keeps_invariant hinv _ _ _
  | rnd x kk => exact rndWith_keeps_invariant hinv _ x kk
  | drw x y n => exact loadThroughIndex_satisfies (fun _ _ => (hinv.setFb _).setFlag _) _ s
  | stdt => exact .next (hinv.setDt _)
  | stst => exact .next (hinv.setSt _)
  | ldi | addi | ldf => exact .next (hinv.setIdx _)
  | bcd | stm => exact storeThroughIndex_keeps_invariant hinv _ _
  | ldm => exact loadThroughIndex_satisfies (fun _ _ => hinv.setRegs _) _ s

theorem execWith_keeps_invariant {s : State} (h : AfterFetch s) (rnd : Byte) (i : Instr) :
    ResultSatisfies Invariant (execWith rnd i s) := by
  unfold execWith
  split
  next x kk => exact rndWith_keeps_invariant h.toInvariant rnd x kk
  next => exact exec_keeps_invariant h _

/-! #### The invariant after each step and operation -/

/-- The execute phase of `step` is that of STEP on the free byte of the next draw. -/
theorem execWith_rnd_draws (i : Instr) (s : State) : execWith (Config.rnd s.draws) i s = exec i s := by
  cases i <;> rfl

theorem stepWith_rnd_draws (s : State) : stepWith (Config.rnd s.draws) s = step s := by
  unfold stepWith step
  cases fetch s with
  | error f => rfl
  | ok w =>
    dsimp only
    cases decode w with
    | unknownOpcode word => rfl
    | instr i => exact execWith_rnd_draws i s.advance

theorem stepWith_keeps_invariant {s : State} (h : Invariant s) (rnd : Byte) :
    ResultSatisfies Invariant (stepWith rnd s) := by
  unfold stepWith
  split
  next => exact .fault _ _
  next w hfetch =>
    split
    next => exact .fault _ _
    next i _ => exact execWith_keeps_invariant (h.afterFetch hfetch) rnd i

/-- Settles O57: `step` is STEP on a free byte, and STEP keeps the invariant whatever the byte. -/
theorem invariantKeptByEveryStep : Obligations.InvariantKeptByEveryStep := fun s t h hstep =>
  stepWith_keeps_invariant h _ t ((stepWith_rnd_draws s).trans hstep)

/-- Settles O59: memory lists nothing, so the font reads as at reset, and the stack is empty. -/
theorem resetMeetsTheInvariant : Obligations.ResetMeetsTheInvariant where
  memory := rfl
  font := fun _ _ => rfl
  stack := fun _ hk => absurd hk (Nat.not_lt_zero _)
  pc := by unfold PcBounded; decide

theorem load_keeps_invariant {s : State} (h : Invariant s) (bytes : List Byte) :
    ResultSatisfies Invariant (load bytes s) := by
  unfold load
  split
  next => exact .fault _ _
  next => exact .next (h.writeBytes (by decide) bytes)

/-- Settles O58: RESET by O59, LOAD and STEP by the state they go on with or the old one; the others touch nothing the
invariant speaks of. -/
theorem invariantKeptByEveryOperation : Obligations.InvariantKeptByEveryOperation := fun op s h => by
  cases op with
  | reset => exact resetMeetsTheInvariant.of_eq rfl rfl rfl rfl
  | load bytes => exact (load_keeps_invariant h bytes).settle h
  | step rnd => exact (stepWith_keeps_invariant h rnd).settle h
  | tick => exact (h.setDt _).setSt _
  | setKey index pressed => exact h.setKeyFlag index pressed
  | readFb => exact h

end Sys2Proof.Machine

/-! ### Memory: the frame of every instruction, and a fetch of stored bytes (20_memory R56, R61) -/

namespace Sys2Proof.Machine

/-- Settles O15: every instruction's frame follows from the frames of the state's updates it is made of. -/
theorem instructionsChangeOnlyTheirParts : Obligations.InstructionsChangeOnlyTheirParts :=
  fun i s t hexec => exec_onlyChanges i s t hexec

/-- The byte `k` places up from `a`, after bytes were written from `a` up, is the `k`-th of them. -/
theorem Memory.read_writeBytes_add {m : Memory} (h : m.wf = true) {a : Nat} {vs : List Byte}
    (ha : a + vs.length ≤ 4096) {k : Nat} (hk : k < vs.length) : (m.writeBytes a vs).read (a + k) = vs[k] := by
  have hrange : a ≤ a + k ∧ a + k < a + vs.length := by omega
  rw [Memory.read_writeBytes h ha, dif_pos hrange]
  simp only [Nat.add_sub_cancel_left]

/-- With both bytes inside memory the fetch reads them, the one at the lower address first (30_encoding R71). -/
theorem fetch_eq_ok {s : State} (h : s.pc.toNat ≤ 4094) :
    fetch s = .ok (Word.ofBytes (s.mem.read s.pc.toNat) (s.mem.read (s.pc.toNat + 1))) := by
  have hnone : firstFailing (readCheck .fetch) s.pc.toNat 2 = none := firstFailing_read_eq_none.mpr (by omega)
  simp only [fetch, hnone]

/-- An STM that completes stored inside memory and changed nothing else (42_memory_index R144). -/
theorem execStm_eq_next {x : RegIndex} {s t : State} (h : execStm x s = .next t) :
    s.idx.toNat + (s.regsUpTo x).length ≤ 4096 ∧ t = s.setMem (s.mem.writeBytes s.idx.toNat (s.regsUpTo x)) := by
  obtain ⟨hrange, hnext⟩ | ⟨k, b, -, hfault⟩ :=
    storeThroughIndex_cases Params.fontWritePolicy (.stm x) (s.regsUpTo x) s
  · obtain hempty | ⟨hle, -⟩ := hrange
    · simp at hempty
    · rw [storeBytes_eq_writeBytes (p := Params.fontWritePolicy) (.inl (by decide))] at hnext
      cases hnext.symm.trans h
      exact ⟨hle, rfl⟩
  · cases hfault.symm.trans h

/-- After an STM, the byte at `I + r` is register `r`, for each register it stores. -/
theorem read_of_execStm_eq_next {x : RegIndex} {s t : State} (hwf : s.mem.wf = true) (h : execStm x s = .next t)
    {r : RegIndex} (hr : r ≤ x) : t.mem.read (s.idx.toNat + r.val) = s.reg r := by
  obtain ⟨hle, rfl⟩ := execStm_eq_next h
  have hlt : r.val < (s.regsUpTo x).length := by
    rw [State.regsUpTo_length]
    exact Nat.lt_succ_of_le hr
  rw [State.setMem_mem, Memory.read_writeBytes_add hwf hle hlt, State.getElem_regsUpTo]

/-- Settles O39: the fetch at `I` reads the two bytes where STM put `x[0]` and `x[1]`. -/
theorem storedWordIsFetchedNext : Obligations.StoredWordIsFetchedNext := by
  intro x s t hwf hx hexec
  change execStm x s = .next t at hexec
  obtain ⟨hle, -⟩ := execStm_eq_next hexec
  rw [State.regsUpTo_length] at hle
  have hhi : t.mem.read s.idx.toNat = s.reg 0 := read_of_execStm_eq_next hwf hexec (Fin.zero_le x)
  have hlo : t.mem.read (s.idx.toNat + 1) = s.reg 1 := read_of_execStm_eq_next hwf hexec (r := 1) hx
  have hpc : (t.setPc s.idx).pc.toNat ≤ 4094 := by
    rw [State.setPc_pc]
    omega
  rw [fetch_eq_ok hpc, State.setPc_pc, State.setPc_mem, hhi, hlo]

end Sys2Proof.Machine

/-! ### The decoder against the encoder, the opcode table and the six groups (30_encoding R76 to R81) -/

namespace Sys2Proof

/-! #### Decoding an encoded instruction -/

/-- The top nibble selects the family, and the operands read back from their fields; the families 8, E and F go on to
their sub-operation. -/
theorem decode_encode (i : Instr) : decode (encode i) = .instr i := by
  cases i with
  | nop | cls | ret => decide
  | jp | call | ldi | jpv0 | seb | sneb | ldb | addb | rnd | se | sne | drw => simp [encode, decode]
  | mov | or | and | xor | add | sub | shr | subn | shl => simp [encode, decode, decodeFamily8]
  | skp | sknp => simp [encode, decode, decodeFamilyE]
  | lddt | wkey | stdt | stst | addi | ldf | bcd | stm | ldm => simp [encode, decode, decodeFamilyF]

theorem decodeBytes_encodeBytes (i : Instr) (rest : List Byte) :
    decodeBytes (encodeBytes i ++ rest) = some (.instr i, rest) := by
  simp [encodeBytes, decodeBytes, decode_encode]

/-- Settles O1: the fields of an encoded word read back as they were placed, so the decoder takes the arm of the
instruction; the two bytes put together again are the word. -/
theorem decodeOfEncodeIsTheInstruction : Obligations.DecodeOfEncodeIsTheInstruction := fun i rest =>
  ⟨decode_encode i, decodeBytes_encodeBytes i rest⟩

/-! #### Encoding the fields of a word -/

theorem encodeA_fields {w : Word} {f : BitVec 4} (h : w.n3.val = f.toNat) : encodeA f w.nnn = w := by
  apply BitVec.eq_of_toNat_eq
  rw [encodeA_toNat, ← h, Word.n3_val, Word.nnn_toNat]
  omega

theorem encodeXK_fields {w : Word} {f : BitVec 4} {kk : Byte} (h : w.n3.val = f.toNat) (hkk : w.kk = kk) :
    encodeXK f w.x kk = w := by
  apply BitVec.eq_of_toNat_eq
  rw [encodeXK_toNat, ← h, ← hkk, Word.n3_val, Word.x_val, Word.kk_toNat]
  omega

theorem encodeXYN_fields {w : Word} {f : BitVec 4} {n : Fin 16} (h : w.n3.val = f.toNat) (hn : w.n0 = n) :
    encodeXYN f w.x w.y n = w := by
  apply BitVec.eq_of_toNat_eq
  rw [encodeXYN_toNat, ← h, ← hn, Word.n3_val, Word.x_val, Word.y_val, Word.n0_val]
  omega

/-- To mask Y out of an encoded word is to encode with Y = 0. -/
theorem encodeXYN_and_FF0F (f : BitVec 4) (x y n : Fin 16) : encodeXYN f x y n &&& 0xFF0F#16 = encodeXYN f x 0 n := by
  have hones (v : BitVec 4) : v &&& 0xF#4 = v := BitVec.and_allOnes
  calc encodeXYN f x y n &&& 0xFF0F#16
      = ((f ++ BitVec.ofNat 4 x.val ++ BitVec.ofNat 4 y.val ++ BitVec.ofNat 4 n.val) &&&
          (0xF#4 ++ 0xF#4 ++ 0x0#4 ++ 0xF#4) : BitVec (4 + 4 + 4 + 4)) := rfl
    _ = f ++ BitVec.ofNat 4 x.val ++ 0#4 ++ BitVec.ofNat 4 n.val := by
      simp only [BitVec.and_append, hones, BitVec.and_zero]

/-! #### The word without its ignored field (30_encoding R79, R81; D5) -/

/-- The word less what the decoder ignores of it: the Y field of SHR and SHL. -/
def Word.withoutIgnoredY (w : Word) : Word :=
  if w &&& 0xF00F#16 = 0x8006#16 ∨ w &&& 0xF00F#16 = 0x800E#16 then w &&& 0xFF0F#16 else w

/-- The words of SHR and SHL by their family and sub-operation. -/
theorem Word.and_F00F_eq_shift_iff {w : Word} :
    (w &&& 0xF00F#16 = 0x8006#16 ∨ w &&& 0xF00F#16 = 0x800E#16) ↔
      w.n3.val = 8 ∧ (w.n0.val = 6 ∨ w.n0.val = 14) := by
  have hw := w.isLt
  simp only [← BitVec.toNat_inj, Word.and_F00F, Word.n3_val, Word.n0_val, BitVec.toNat_ofNat]
  omega

theorem Word.withoutIgnoredY_of_n3_ne {w : Word} (h : w.n3.val ≠ 8) : w.withoutIgnoredY = w :=
  if_neg fun hs => h (Word.and_F00F_eq_shift_iff.mp hs).1

theorem Word.withoutIgnoredY_of_n0_ne {w : Word} (h6 : w.n0.val ≠ 6) (h14 : w.n0.val ≠ 14) :
    w.withoutIgnoredY = w :=
  if_neg fun hs => (Word.and_F00F_eq_shift_iff.mp hs).2.elim h6 h14

theorem Word.withoutIgnoredY_of_shift {w : Word} {n : Fin 16} (h3 : w.n3.val = 8) (h0 : w.n0.val = n.val)
    (hn : n.val = 6 ∨ n.val = 14) : w.withoutIgnoredY = encodeXYN 8 w.x 0 n := by
  have hshift := Word.and_F00F_eq_shift_iff.mpr ⟨h3, h0 ▸ hn⟩
  rw [Word.withoutIgnoredY, if_pos hshift, ← encodeXYN_and_FF0F 8 w.x w.y n, encodeXYN_fields h3 (Fin.ext h0)]

/-! #### The groups of R78 by the fields of the word -/

theorem wellFormed_of_family0 {w : Word} (h : w.n3.val = 0) : WellFormed.word w = WellFormed.family0 w.toNat := by
  simp [WellFormed.word, ← Word.n3_val, h]

theorem wellFormed_of_family5_or_9 {w : Word} (h : w.n3.val = 5 ∨ w.n3.val = 9) :
    WellFormed.word w = (w.n0.val == 0) := by
  rcases h with h | h <;> simp [WellFormed.word, WellFormed.lowNibbleZero, ← Word.n3_val, ← Word.n0_val, h]

theorem wellFormed_of_family8 {w : Word} (h : w.n3.val = 8) :
    WellFormed.word w = (decide (w.n0.val ≤ 7) || w.n0.val == 0xE) := by
  simp [WellFormed.word, WellFormed.family8, ← Word.n3_val, ← Word.n0_val, h]

theorem wellFormed_of_familyE {w : Word} (h : w.n3.val = 14) :
    WellFormed.word w = (w.kk.toNat == 0x9E || w.kk.toNat == 0xA1) := by
  simp [WellFormed.word, WellFormed.familyE, ← Word.n3_val, ← Word.kk_toNat, h]

theorem wellFormed_of_familyF {w : Word} (h : w.n3.val = 15) :
    WellFormed.word w = [0x07, 0x0A, 0x15, 0x18, 0x1E, 0x29, 0x33, 0x55, 0x65].contains w.kk.toNat := by
  simp [WellFormed.word, WellFormed.familyF, ← Word.n3_val, ← Word.kk_toNat, h]

theorem wellFormed_of_plain_family {w : Word} (h : w.n3.val ∉ [0, 5, 8, 9, 14, 15]) : WellFormed.word w = true := by
  simp only [List.mem_cons, List.not_mem_nil, or_false, not_or] at h
  simp [WellFormed.word, ← Word.n3_val, h]

/-! #### All the decoder can answer -/

/-- What the decoder's answer says of the word: an instruction whose word it is, the ignored field aside, and then it is
in no group of R78; or UnknownOpcode of the word itself, and then it is in one. -/
def Decoded.IsAnswerTo (w : Word) : Decoded → Prop
  | .instr i => encode i = w.withoutIgnoredY ∧ WellFormed.word w = true
  | .unknownOpcode v => v = w ∧ WellFormed.word w = false

/-- Outside family 8 the decoder ignores no field. -/
theorem Decoded.IsAnswerTo.instr {w : Word} {i : Instr} (h : w.n3.val ≠ 8) (henc : encode i = w)
    (hwf : WellFormed.word w = true) : (Decoded.instr i).IsAnswerTo w :=
  ⟨henc.trans (Word.withoutIgnoredY_of_n3_ne h).symm, hwf⟩

theorem Decoded.IsAnswerTo.instr_of_plain_family {w : Word} {i : Instr} (h : w.n3.val ∉ [0, 5, 8, 9, 14, 15])
    (henc : encode i = w) : (Decoded.instr i).IsAnswerTo w :=
  .instr (fun h8 => h (by simp [h8])) henc (wellFormed_of_plain_family h)

theorem Decoded.IsAnswerTo.instr_of_family8 {w : Word} {i : Instr} {n : Fin 16} (h : w.n3.val = 8)
    (h0 : w.n0.val = n.val) (hn : n.val ≤ 7 ∧ n.val ≠ 6) (henc : encode i = encodeXYN 8 w.x w.y n) :
    (Decoded.instr i).IsAnswerTo w := by
  refine ⟨?_, by rw [wellFormed_of_family8 h, h0]; simp [hn.1]⟩
  rw [henc, Word.withoutIgnoredY_of_n0_ne (by omega) (by omega)]
  exact encodeXYN_fields h (Fin.ext h0)

theorem Decoded.IsAnswerTo.instr_of_shift {w : Word} {i : Instr} {n : Fin 16} (h : w.n3.val = 8)
    (h0 : w.n0.val = n.val) (hn : n.val = 6 ∨ n.val = 14) (henc : encode i = encodeXYN 8 w.x 0 n) :
    (Decoded.instr i).IsAnswerTo w := by
  refine ⟨henc.trans (Word.withoutIgnoredY_of_shift h h0 hn).symm, ?_⟩
  rw [wellFormed_of_family8 h, h0]
  rcases hn with hn | hn <;> rw [hn] <;> rfl

theorem decodeFamily0_isAnswerTo {w : Word} (h : w.n3.val = 0) : (decodeFamily0 w).IsAnswerTo w := by
  have hwf := wellFormed_of_family0 h
  unfold decodeFamily0
  split_ifs with hnop hcls hret
  · exact .instr (by omega) hnop.symm (by rw [hnop]; rfl)
  · exact .instr (by omega) hcls.symm (by rw [hcls]; rfl)
  · exact .instr (by omega) hret.symm (by rw [hret]; rfl)
  · refine ⟨rfl, ?_⟩
    simp_all [WellFormed.family0, ← BitVec.toNat_inj]

theorem ifN0_isAnswerTo {w : Word} {i : Instr} (h : w.n3.val = 5 ∨ w.n3.val = 9) (henc : w.n0 = 0 → encode i = w) :
    (if w.n0 = 0 then Decoded.instr i else .unknownOpcode w).IsAnswerTo w := by
  have hwf := wellFormed_of_family5_or_9 h
  split_ifs with h0
  · exact .instr (by omega) (henc h0) (by simp [hwf, h0])
  · exact ⟨rfl, by simp [hwf, h0]⟩

theorem decodeFamily8_isAnswerTo {w : Word} (h : w.n3.val = 8) : (decodeFamily8 w).IsAnswerTo w := by
  have hwf := wellFormed_of_family8 h
  unfold decodeFamily8
  split
  next h0 => exact .instr_of_family8 h (n := 0) h0 (by decide) rfl
  next h0 => exact .instr_of_family8 h (n := 1) h0 (by decide) rfl
  next h0 => exact .instr_of_family8 h (n := 2) h0 (by decide) rfl
  next h0 => exact .instr_of_family8 h (n := 3) h0 (by decide) rfl
  next h0 => exact .instr_of_family8 h (n := 4) h0 (by decide) rfl
  next h0 => exact .instr_of_family8 h (n := 5) h0 (by decide) rfl
  next h0 => exact .instr_of_shift h (n := 6) h0 (.inl rfl) rfl
  next h0 => exact .instr_of_family8 h (n := 7) h0 (by decide) rfl
  next h0 => exact .instr_of_shift h (n := 14) h0 (.inr rfl) rfl
  next =>
    refine ⟨rfl, ?_⟩
    simp only [imp_false, hwf, Bool.or_eq_false_iff, decide_eq_false_iff_not, beq_eq_false_iff_ne] at *
    omega

theorem decodeFamilyE_isAnswerTo {w : Word} (h : w.n3.val = 14) : (decodeFamilyE w).IsAnswerTo w := by
  have hwf := wellFormed_of_familyE h
  unfold decodeFamilyE
  split
  iterate 2 next hkk => exact .instr (by omega) (encodeXK_fields h (BitVec.eq_of_toNat_eq hkk)) (by rw [hwf, hkk]; rfl)
  next => exact ⟨rfl, by simp_all⟩

theorem decodeFamilyF_isAnswerTo {w : Word} (h : w.n3.val = 15) : (decodeFamilyF w).IsAnswerTo w := by
  have hwf := wellFormed_of_familyF h
  unfold decodeFamilyF
  split
  iterate 9 next hkk => exact .instr (by omega) (encodeXK_fields h (BitVec.eq_of_toNat_eq hkk)) (by rw [hwf, hkk]; rfl)
  next => exact ⟨rfl, by simp_all⟩

/-- Family by family, every answer of the decoder fits its word. -/
theorem decode_isAnswerTo (w : Word) : (decode w).IsAnswerTo w := by
  unfold decode
  split
  next h => exact decodeFamily0_isAnswerTo h
  next h => exact .instr_of_plain_family (by simp [h]) (encodeA_fields h)
  next h => exact .instr_of_plain_family (by simp [h]) (encodeA_fields h)
  next h => exact .instr_of_plain_family (by simp [h]) (encodeXK_fields h rfl)
  next h => exact .instr_of_plain_family (by simp [h]) (encodeXK_fields h rfl)
  next h => exact ifN0_isAnswerTo (.inl h) (encodeXYN_fields h)
  next h => exact .instr_of_plain_family (by simp [h]) (encodeXK_fields h rfl)
  next h => exact .instr_of_plain_family (by simp [h]) (encodeXK_fields h rfl)
  next h => exact decodeFamily8_isAnswerTo h
  next h => exact ifN0_isAnswerTo (.inr h) (encodeXYN_fields h)
  next h => exact .instr_of_plain_family (by simp [h]) (encodeA_fields h)
  next h => exact .instr_of_plain_family (by simp [h]) (encodeA_fields h)
  next h => exact .instr_of_plain_family (by simp [h]) (encodeXK_fields h rfl)
  next h => exact .instr_of_plain_family (by simp [h]) (encodeXYN_fields h rfl)
  next h => exact decodeFamilyE_isAnswerTo h
  next h => exact decodeFamilyF_isAnswerTo h
  next =>
    have := w.n3.isLt
    simp only [imp_false] at *
    omega

theorem encode_of_decode_eq_instr {w : Word} {i : Instr} (h : decode w = .instr i) : encode i = w.withoutIgnoredY :=
  (h ▸ decode_isAnswerTo w : (Decoded.instr i).IsAnswerTo w).1

theorem wellFormed_of_decode_eq_instr {w : Word} {i : Instr} (h : decode w = .instr i) : WellFormed.word w = true :=
  (h ▸ decode_isAnswerTo w : (Decoded.instr i).IsAnswerTo w).2

theorem eq_and_not_wellFormed_of_decode_eq_unknownOpcode {w v : Word} (h : decode w = .unknownOpcode v) :
    v = w ∧ WellFormed.word w = false :=
  (h ▸ decode_isAnswerTo w : (Decoded.unknownOpcode v).IsAnswerTo w)

/-- Settles O2: the decoder answers an instruction only for the instruction's own word, the ignored field aside. -/
theorem encodeOfDecodeKeepsTheWord : Obligations.EncodeOfDecodeKeepsTheWord := fun _ _ h =>
  encode_of_decode_eq_instr h

/-- Settles O4: either answer tells whether the word is in a group of R78. -/
theorem unknownWordsAreTheSixGroups : Obligations.UnknownWordsAreTheSixGroups := by
  intro w
  cases h : decode w with
  | instr i => simp [wellFormed_of_decode_eq_instr h]
  | unknownOpcode v =>
    obtain ⟨rfl, hwf⟩ := eq_and_not_wellFormed_of_decode_eq_unknownOpcode h
    simp [hwf]

/-! #### The opcode table (30_encoding R76) -/

theorem encodesItsRow (i : Instr) : Laws.EncodesItsRow.Statement i := by
  cases i with
  | nop => exact Laws.EncodesItsRow.nop
  | cls => exact Laws.EncodesItsRow.cls
  | ret => exact Laws.EncodesItsRow.ret
  | jp nnn => exact Laws.EncodesItsRow.jp nnn
  | call nnn => exact Laws.EncodesItsRow.call nnn
  | seb x kk => exact Laws.EncodesItsRow.seb x kk
  | sneb x kk => exact Laws.EncodesItsRow.sneb x kk
  | se x y => exact Laws.EncodesItsRow.se x y
  | ldb x kk => exact Laws.EncodesItsRow.ldb x kk
  | addb x kk => exact Laws.EncodesItsRow.addb x kk
  | mov x y => exact Laws.EncodesItsRow.mov x y
  | or x y => exact Laws.EncodesItsRow.or x y
  | and x y => exact Laws.EncodesItsRow.and x y
  | xor x y => exact Laws.EncodesItsRow.xor x y
  | add x y => exact Laws.EncodesItsRow.add x y
  | sub x y => exact Laws.EncodesItsRow.sub x y
  | shr x => exact Laws.EncodesItsRow.shr x
  | subn x y => exact Laws.EncodesItsRow.subn x y
  | shl x => exact Laws.EncodesItsRow.shl x
  | sne x y => exact Laws.EncodesItsRow.sne x y
  | ldi nnn => exact Laws.EncodesItsRow.ldi nnn
  | jpv0 nnn => exact Laws.EncodesItsRow.jpv0 nnn
  | rnd x kk => exact Laws.EncodesItsRow.rnd x kk
  | drw x y n => exact Laws.EncodesItsRow.drw x y n
  | skp x => exact Laws.EncodesItsRow.skp x
  | sknp x => exact Laws.EncodesItsRow.sknp x
  | lddt x => exact Laws.EncodesItsRow.lddt x
  | wkey x => exact Laws.EncodesItsRow.wkey x
  | stdt x => exact Laws.EncodesItsRow.stdt x
  | stst x => exact Laws.EncodesItsRow.stst x
  | addi x => exact Laws.EncodesItsRow.addi x
  | ldf x => exact Laws.EncodesItsRow.ldf x
  | bcd x => exact Laws.EncodesItsRow.bcd x
  | stm x => exact Laws.EncodesItsRow.stm x
  | ldm x => exact Laws.EncodesItsRow.ldm x

theorem OpcodeRow.selects_iff {row : OpcodeRow} {w : Word} : row.selects w = true ↔ w &&& row.mask = row.value := by
  simp [OpcodeRow.selects]

/-- Two rows of the table differ in a bit that both masks keep. -/
theorem opcodeTable_rows_differ : ∀ r ∈ opcodeTable, ∀ r' ∈ opcodeTable,
    r.value &&& r'.mask = r'.value &&& r.mask → r = r' := by decide

theorem opcodeTable_rows_disjoint {w : Word} {r r' : OpcodeRow} (hr : r ∈ opcodeTable) (hr' : r' ∈ opcodeTable)
    (h : r.selects w = true) (h' : r'.selects w = true) : r = r' := by
  rw [OpcodeRow.selects_iff] at h h'
  refine opcodeTable_rows_differ r hr r' hr' ?_
  rw [← h, ← h', BitVec.and_assoc, BitVec.and_assoc, BitVec.and_comm r.mask]

/-- A row of SHR or SHL, whose mask is `F00F`, selects a word whatever its Y. -/
theorem selects_and_FF0F {row : OpcodeRow} (hmask : row.mask = 0xF00F#16) (w : Word) :
    row.selects (w &&& 0xFF0F#16) = row.selects w := by
  rw [OpcodeRow.selects, OpcodeRow.selects, hmask, BitVec.and_assoc]
  rfl

theorem selects_of_selects_and_FF0F {shift row : OpcodeRow} {w : Word} (hshift : shift ∈ opcodeTable)
    (hrow : row ∈ opcodeTable) (hmask : shift.mask = 0xF00F#16) (hw : shift.selects w = true)
    (h : row.selects (w &&& 0xFF0F#16) = true) : row.selects w = true := by
  have hzeroY : shift.selects (w &&& 0xFF0F#16) = true := (selects_and_FF0F hmask w).trans hw
  exact opcodeTable_rows_disjoint hshift hrow hzeroY h ▸ hw

/-- The row that selects a word less its ignored Y selects the word: where Y is ignored, it is the row of SHR or SHL. -/
theorem selects_of_selects_withoutIgnoredY {row : OpcodeRow} (hrow : row ∈ opcodeTable) {w : Word}
    (h : row.selects w.withoutIgnoredY = true) : row.selects w = true := by
  unfold Word.withoutIgnoredY at h
  split_ifs at h with hw
  · rcases hw with hshr | hshl
    · exact selects_of_selects_and_FF0F (shift := ⟨"SHR", .xy, 0xF00F, 0x8006⟩) (by decide) hrow rfl
        (OpcodeRow.selects_iff.mpr hshr) h
    · exact selects_of_selects_and_FF0F (shift := ⟨"SHL", .xy, 0xF00F, 0x800E⟩) (by decide) hrow rfl
        (OpcodeRow.selects_iff.mpr hshl) h
  · exact h

/-- The masks of the table by family: a whole word, a low nibble, a low byte, or the family alone. -/
theorem opcodeTable_masks : ∀ row ∈ opcodeTable,
    row.mask = 0xFFFF#16 ∨ (row.mask = 0xF00F#16 ∧ row.value.n3.val ∈ [5, 8, 9]) ∨
    (row.mask = 0xF0FF#16 ∧ row.value.n3.val ∈ [14, 15]) ∨
    (row.mask = 0xF000#16 ∧ row.value.n3.val ∉ [0, 5, 8, 9, 14, 15]) := by decide

theorem opcodeTable_values_wellFormed : ∀ row ∈ opcodeTable, WellFormed.word row.value = true := by decide

theorem Word.n3_and_F000 (w : Word) : (w &&& 0xF000#16).n3.val = w.n3.val := by
  rw [Word.n3_val, Word.n3_val, Word.and_F000]
  omega

theorem Word.n3_and_F00F (w : Word) : (w &&& 0xF00F#16).n3.val = w.n3.val := by
  rw [Word.n3_val, Word.n3_val, Word.and_F00F]
  omega

theorem Word.n0_and_F00F (w : Word) : (w &&& 0xF00F#16).n0.val = w.n0.val := by
  rw [Word.n0_val, Word.n0_val, Word.and_F00F]
  omega

theorem Word.n3_and_F0FF (w : Word) : (w &&& 0xF0FF#16).n3.val = w.n3.val := by
  rw [Word.n3_val, Word.n3_val, Word.and_F0FF]
  omega

theorem Word.kk_and_F0FF (w : Word) : (w &&& 0xF0FF#16).kk.toNat = w.kk.toNat := by
  rw [Word.kk_toNat, Word.kk_toNat, Word.and_F0FF]
  omega

/-- In families 5, 8 and 9 the low nibble alone decides. -/
theorem wellFormed_and_F00F {w : Word} (h : w.n3.val ∈ [5, 8, 9]) :
    WellFormed.word (w &&& 0xF00F#16) = WellFormed.word w := by
  have h3 := Word.n3_and_F00F w
  simp only [List.mem_cons, List.not_mem_nil, or_false] at h
  rcases h with h | h | h
  · rw [wellFormed_of_family5_or_9 (.inl (h3.trans h)), wellFormed_of_family5_or_9 (.inl h), Word.n0_and_F00F]
  · rw [wellFormed_of_family8 (h3.trans h), wellFormed_of_family8 h, Word.n0_and_F00F]
  · rw [wellFormed_of_family5_or_9 (.inr (h3.trans h)), wellFormed_of_family5_or_9 (.inr h), Word.n0_and_F00F]

/-- In families E and F the low byte alone decides. -/
theorem wellFormed_and_F0FF {w : Word} (h : w.n3.val ∈ [14, 15]) :
    WellFormed.word (w &&& 0xF0FF#16) = WellFormed.word w := by
  have h3 := Word.n3_and_F0FF w
  simp only [List.mem_cons, List.not_mem_nil, or_false] at h
  rcases h with h | h
  · rw [wellFormed_of_familyE (h3.trans h), wellFormed_of_familyE h, Word.kk_and_F0FF]
  · rw [wellFormed_of_familyF (h3.trans h), wellFormed_of_familyF h, Word.kk_and_F0FF]

/-- A word a row selects is in no group of R78: the row's mask keeps the bits that decide, and the row's own value is in
none. -/
theorem wellFormed_of_selects {row : OpcodeRow} (hrow : row ∈ opcodeTable) {w : Word} (h : row.selects w = true) :
    WellFormed.word w = true := by
  have hvalue := opcodeTable_values_wellFormed row hrow
  have hmasks := opcodeTable_masks row hrow
  rw [← OpcodeRow.selects_iff.mp h] at hvalue hmasks
  obtain hmask | ⟨hmask, hfam⟩ | ⟨hmask, hfam⟩ | ⟨hmask, hfam⟩ := hmasks <;> rw [hmask] at hvalue
  · rwa [Word.and_FFFF] at hvalue
  · rw [hmask, Word.n3_and_F00F] at hfam
    exact (wellFormed_and_F00F hfam).symm.trans hvalue
  · rw [hmask, Word.n3_and_F0FF] at hfam
    exact (wellFormed_and_F0FF hfam).symm.trans hvalue
  · rw [hmask, Word.n3_and_F000] at hfam
    exact wellFormed_of_plain_family hfam

theorem exists_row_of_decode_eq_instr {w : Word} {i : Instr} (h : decode w = .instr i) :
    ∃ row, row ∈ opcodeTable ∧ row.selects w = true ∧ row.mnemonic = i.mnemonic := by
  obtain ⟨row, hrow, hname, hsel⟩ := encodesItsRow i
  rw [encode_of_decode_eq_instr h] at hsel
  exact ⟨row, hrow, selects_of_selects_withoutIgnoredY hrow hsel, hname⟩

/-- Settles O3: the row of the decoded instruction selects the word, and disjoint rows leave no other; a word some row
selects is in no group of R78, so it is not UnknownOpcode. -/
theorem decoderAgreesWithTheOpcodeTable : Obligations.DecoderAgreesWithTheOpcodeTable := by
  refine fun w => ⟨fun i h => ?_, fun v h => ?_⟩
  · obtain ⟨row, hrow, hsel, hname⟩ := exists_row_of_decode_eq_instr h
    exact ⟨row, hrow, hsel, hname, fun other hother hsel' => opcodeTable_rows_disjoint hother hrow hsel' hsel⟩
  · obtain ⟨rfl, hwf⟩ := eq_and_not_wellFormed_of_decode_eq_unknownOpcode h
    refine ⟨rfl, fun row hrow => Bool.eq_false_iff.mpr fun hsel => ?_⟩
    exact Bool.false_ne_true (hwf.symm.trans (wellFormed_of_selects hrow hsel))

/-- Settles O5: the decoder evaluated on the eleven words. -/
theorem sampleWordsDecode : Obligations.SampleWordsDecode := by
  unfold Obligations.SampleWordsDecode
  decide

end Sys2Proof

/-! ### The STEP cycle (30_encoding R70 to R72, 43_random R160) -/

namespace Sys2Proof.Machine

/-- A step whose fetch and decode succeed is the execution of the decoded instruction. -/
theorem step_eq_exec {s : State} {i : Instr} (hpc : s.pc.toNat ≤ 4094)
    (hdecode : decode (wordAt s s.pc.toNat) = .instr i) : step s = exec i s.advance := by
  have hfetch : fetch s = .ok (wordAt s s.pc.toNat) := fetch_eq_ok hpc
  simp only [step, hfetch, hdecode]

/-- Below 4095 the advance does not wrap. -/
theorem advance_pc_toNat {s : State} (hpc : s.pc.toNat ≤ 4094) : s.advance.pc.toNat = s.pc.toNat + 2 := by
  rw [State.advance_pc]
  bv_omega

/-- Settles O6: from the fetch inside memory, and the frame of the advance. -/
theorem stepRunsTheDecodedInstruction : Obligations.StepRunsTheDecodedInstruction := fun s _ hpc hdecode =>
  ⟨step_eq_exec hpc hdecode, advance_pc_toNat hpc, onlyChanges_advance s⟩

/-- Settles O14: only RND reads the byte, and `step` gives it the same one. -/
theorem stepIsTheStepOperationOnAFreeByte : Obligations.StepIsTheStepOperationOnAFreeByte := fun s =>
  (stepWith_rnd_draws s).symm

end Sys2Proof.Machine

/-! ### Control transfer (40_control_transfer) -/

namespace Sys2Proof.Machine

/-! #### Who writes `PC` -/

theorem pc_mem_mayChange_iff (i : Instr) : Part.pc ∈ mayChange i ↔
    i.mnemonic ∈ ["JP", "CALL", "RET", "JPV0", "SEB", "SNEB", "SE", "SNE", "SKP", "SKNP", "WKEY"] := by
  cases i <;> simp [mayChange, Instr.mnemonic]

/-- Settles O17: the frame of every instruction keeps `PC` unless it lists it, and eleven list it. -/
theorem elevenInstructionsWriteThePc : Obligations.ElevenInstructionsWriteThePc := fun i s t hexec hpc =>
  (pc_mem_mayChange_iff i).mp <| by_contra fun hkept => hpc (exec_onlyChanges i s t hexec .pc hkept)

/-- Settles O18: JP is one write of `PC`, and the zero-extended address has the value of the address. -/
theorem jumpGoesToItsAddress : Obligations.JumpGoesToItsAddress := fun nnn s =>
  ⟨s.setPc nnn.toWord, rfl, Addr12.toWord_toNat nnn, onlyChanges_setPc s _⟩

/-! #### Skips -/

theorem skipsExactlyWhen_of_skipIf {i : Instr} {s : State} {b : Bool} {c : Prop}
    (hexec : exec i s = .next (s.skipIf b)) (hb : b = true ↔ c) : SkipsExactlyWhen i s c := by
  refine ⟨s.skipIf b, hexec, fun hc => ?_, fun hc => ?_, onlyChanges_skipIf s b⟩
  · rw [State.skipIf_pc, if_pos (hb.mpr hc)]
  · rw [State.skipIf_pc, if_neg (mt hb.mp hc)]

/-- Settles O23: each of the four is a skip under the Boolean form of its comparison. -/
theorem comparisonsSkip : Obligations.ComparisonsSkip := fun _ _ _ _ =>
  ⟨skipsExactlyWhen_of_skipIf rfl beq_iff_eq, skipsExactlyWhen_of_skipIf rfl bne_iff_ne,
   skipsExactlyWhen_of_skipIf rfl beq_iff_eq, skipsExactlyWhen_of_skipIf rfl bne_iff_ne⟩

/-! #### CALL and RET -/

theorem State.exists_push?_eq_some {s : State} (h : s.sp.val < 16) (v : Word) : ∃ t, s.push? v = some t :=
  Option.ne_none_iff_exists'.mp fun hnone => h.ne (State.push?_eq_none.mp hnone)

/-- The entry a non-empty stack gives is the most recent one. -/
theorem State.exists_pop?_eq_some {s : State} {k : Fin 16} (h : s.sp.val = k.val + 1) :
    ∃ t, s.pop? = some (s.stack[k.val], t) := by
  have hne : s.pop? ≠ none := fun hnone => by
    have := State.pop?_eq_none.mp hnone
    omega
  obtain ⟨⟨v, t⟩, hpop⟩ := Option.ne_none_iff_exists'.mp hne
  obtain ⟨top, hsp, -, rfl, -⟩ := State.pop?_eq_some hpop
  obtain rfl : top = k := by omega
  exact ⟨t, hpop⟩

theorem exec_call_of_push? {s t : State} (hpush : s.push? s.pc = some t) (nnn : Addr12) :
    exec (.call nnn) s = .next (t.setPc nnn.toWord) := by
  simp only [exec, execCall, hpush]

theorem exec_call_of_full {s : State} (h : s.sp.val = 16) (nnn : Addr12) :
    exec (.call nnn) s = .fault (.stackOverflow (s.pc - 2) (encode (.call nnn))) := by
  simp only [exec, execCall, State.push?_eq_none.mpr h, raise, State.pc0]

theorem exec_ret_of_pop? {s t : State} {v : Word} (hpop : s.pop? = some (v, t)) :
    exec .ret s = .next (t.setPc v) := by
  simp only [exec, execRet, hpop]

theorem exec_ret_of_empty {s : State} (h : s.sp.val = 0) :
    exec .ret s = .fault (.stackUnderflow (s.pc - 2) (encode .ret)) := by
  simp only [exec, execRet, State.pop?_eq_none.mpr h, raise, State.pc0]

/-- Settles O20: with a free entry the push succeeds and `PC` is written after it; a full stack refuses the push. -/
theorem callPushesTheAdvancedPc : Obligations.CallPushesTheAdvancedPc := by
  refine fun nnn s => ⟨fun hfree => ?_, fun hfull => exec_call_of_full hfull nnn⟩
  obtain ⟨t, hpush⟩ := State.exists_push?_eq_some hfree s.pc
  obtain ⟨-, hsp, hstack, -⟩ := State.push?_eq_some hpush
  have hexec := exec_call_of_push? hpush nnn
  exact ⟨t.setPc nnn.toWord, hexec, Addr12.toWord_toNat nnn, hsp, hstack, exec_onlyChanges _ s _ hexec⟩

/-- Settles O21: the pop gives the most recent entry, which goes into `PC`, and clears none; an empty stack gives no
entry. -/
theorem returnPopsIntoThePc : Obligations.ReturnPopsIntoThePc := by
  refine fun s => ⟨fun k hk => ?_, exec_ret_of_empty⟩
  obtain ⟨t, hpop⟩ := State.exists_pop?_eq_some hk
  obtain ⟨top, hsp, htsp, -, hstack, -⟩ := State.pop?_eq_some hpop
  have hexec := exec_ret_of_pop? hpop
  refine ⟨t.setPc s.stack[k.val], hexec, rfl, ?_, fun j _ => ?_, exec_onlyChanges _ s _ hexec⟩
  · rw [State.setPc_sp]
    omega
  · simp only [State.setPc_stack, hstack]

/-! #### A call and its return -/

theorem wordAt_eq_of_onlyChanges {ps : List Part} {s t : State} (h : OnlyChanges ps s t) (hmem : Part.mem ∉ ps)
    (a : Nat) : wordAt t a = wordAt s a := by
  have hread : ∀ b, t.mem.read b = s.mem.read b := h .mem hmem
  simp only [wordAt, hread]

/-- A frame that lists `PC` covers the advance of the fetch phase too. -/
theorem OnlyChanges.of_advance {ps : List Part} {s t : State} (hpc : Part.pc ∈ ps) (h : OnlyChanges ps s.advance t) :
    OnlyChanges ps s t :=
  ((onlyChanges_advance s).mono (by simpa using hpc)).trans h

/-- Settles O22: the call's step is O20 and leaves memory alone, so the return is still at `nnn`; its step is O21 on the
entry the call pushed, the address after the call. -/
theorem callThenReturnComesBack : Obligations.CallThenReturnComesBack := by
  intro s nnn hpc hnnn hfree hcall hret
  obtain ⟨t, hexec, htpc, htsp, htstack, hst⟩ := (callPushesTheAdvancedPc nnn s.advance).1 hfree
  replace hst : OnlyChanges [.pc, .stack] s t := hst.of_advance (by simp)
  have hret' : decode (wordAt t t.pc.toNat) = .instr .ret := by
    rw [htpc, wordAt_eq_of_onlyChanges hst (by simp), hret]
  obtain ⟨u, hexec', hupc, husp, hustack, htu⟩ := (returnPopsIntoThePc t.advance).1 ⟨s.sp.val, hfree⟩ htsp
  refine ⟨t, u, (step_eq_exec hpc hcall).trans hexec, (step_eq_exec (htpc ▸ hnnn) hret').trans hexec', ?_,
    Fin.ext husp, fun k hk => ?_, hst.trans (htu.of_advance (by simp))⟩
  · have hpushed : u.pc = s.advance.pc := hupc.trans ((htstack ⟨s.sp.val, hfree⟩).trans (if_pos rfl))
    rw [hpushed, advance_pc_toNat hpc]
  · calc
      u.stack[k.val] = t.stack[k.val] := hustack k hk
      _ = s.stack[k.val] := (htstack k).trans (if_neg hk.ne)

end Sys2Proof.Machine

/-! ### Arithmetic (41_arithmetic) -/

namespace Sys2Proof.Machine

/-! #### The two shapes of an arithmetic instruction -/

theorem writesOneRegister_of_setReg {i : Instr} {s : State} {x : RegIndex} {v : Byte} {n : Nat}
    (hexec : exec i s = .next (s.setReg x v)) (hv : v.toNat = n) : WritesOneRegister i s x n := by
  refine ⟨s.setReg x v, hexec, ?_, fun r hr => s.setReg_reg_of_ne hr v, onlyChanges_setReg s x v⟩
  rw [State.setReg_reg, if_pos rfl, hv]

/-- The flag is written last, so it stands in `x[15]` even when that is the destination (R120). -/
theorem writesResultThenFlag_of_writeResultAndFlag {i : Instr} {s : State} {x : RegIndex} {v : Byte} {flag : Bool}
    {n f : Nat} (hexec : exec i s = writeResultAndFlag x v flag s) (hv : v.toNat = n)
    (hflag : (flagByte flag).toNat = f) : WritesResultThenFlag i s x n f := by
  refine ⟨(s.setReg x v).setFlag flag, hexec, fun hx => ?_, ?_, fun r hx hr => ?_,
    writeResultAndFlag_onlyChanges x v flag s _ rfl⟩
  · rw [State.setFlag_reg_of_ne _ hx, State.setReg_reg, if_pos rfl, hv]
  · rw [State.setFlag_reg, if_pos rfl, hflag]
  · rw [State.setFlag_reg_of_ne _ hr, State.setReg_reg_of_ne _ hx]

/-! #### The values, as natural numbers -/

theorem flagByte_toNat (b : Bool) : (flagByte b).toNat = if b = true then 1 else 0 := by
  cases b <;> rfl

theorem flagByte_carryOut_toNat (a b : Byte) :
    (flagByte (carryOut a b)).toNat = if a.toNat + b.toNat > 255 then 1 else 0 := by
  simp only [flagByte_toNat, carryOut, decide_eq_true_eq]

theorem flagByte_noBorrow_toNat (a b : Byte) :
    (flagByte (noBorrow a b)).toNat = if a.toNat ≥ b.toNat then 1 else 0 := by
  simp only [flagByte_toNat, noBorrow, decide_eq_true_eq]

/-- The difference modulo 256, the borrowed 256 added to the minuend. -/
theorem byte_sub_toNat (a b : Byte) : (a - b).toNat = (a.toNat + 256 - b.toNat) % 256 := by
  bv_omega

/-! #### The instructions, for every destination and operand, the flag register included -/

theorem ldb_writesOneRegister (x : RegIndex) (kk : Byte) (s : State) :
    WritesOneRegister (.ldb x kk) s x kk.toNat :=
  writesOneRegister_of_setReg rfl rfl

theorem addb_writesOneRegister (x : RegIndex) (kk : Byte) (s : State) :
    WritesOneRegister (.addb x kk) s x (((s.reg x).toNat + kk.toNat) % 256) :=
  writesOneRegister_of_setReg rfl (BitVec.toNat_add _ _)

theorem mov_writesOneRegister (x y : RegIndex) (s : State) : WritesOneRegister (.mov x y) s x (s.reg y).toNat :=
  writesOneRegister_of_setReg rfl rfl

theorem or_writesOneRegister (x y : RegIndex) (s : State) :
    WritesOneRegister (.or x y) s x ((s.reg x).toNat ||| (s.reg y).toNat) :=
  writesOneRegister_of_setReg rfl (BitVec.toNat_or _ _)

theorem and_writesOneRegister (x y : RegIndex) (s : State) :
    WritesOneRegister (.and x y) s x ((s.reg x).toNat &&& (s.reg y).toNat) :=
  writesOneRegister_of_setReg rfl (BitVec.toNat_and _ _)

theorem xor_writesOneRegister (x y : RegIndex) (s : State) :
    WritesOneRegister (.xor x y) s x ((s.reg x).toNat ^^^ (s.reg y).toNat) :=
  writesOneRegister_of_setReg rfl (BitVec.toNat_xor _ _)

theorem add_writesResultThenFlag (x y : RegIndex) (s : State) :
    WritesResultThenFlag (.add x y) s x (((s.reg x).toNat + (s.reg y).toNat) % 256)
      (if (s.reg x).toNat + (s.reg y).toNat > 255 then 1 else 0) :=
  writesResultThenFlag_of_writeResultAndFlag rfl (BitVec.toNat_add _ _) (flagByte_carryOut_toNat _ _)

theorem sub_writesResultThenFlag (x y : RegIndex) (s : State) :
    WritesResultThenFlag (.sub x y) s x (((s.reg x).toNat + 256 - (s.reg y).toNat) % 256)
      (if (s.reg x).toNat ≥ (s.reg y).toNat then 1 else 0) :=
  writesResultThenFlag_of_writeResultAndFlag rfl (byte_sub_toNat _ _) (flagByte_noBorrow_toNat _ _)

theorem subn_writesResultThenFlag (x y : RegIndex) (s : State) :
    WritesResultThenFlag (.subn x y) s x (((s.reg y).toNat + 256 - (s.reg x).toNat) % 256)
      (if (s.reg y).toNat ≥ (s.reg x).toNat then 1 else 0) :=
  writesResultThenFlag_of_writeResultAndFlag rfl (byte_sub_toNat _ _) (flagByte_noBorrow_toNat _ _)

/-! #### The obligations -/

/-- Settles O24: LDB is one write of register X. -/
theorem loadImmediateSetsOneRegister : Obligations.LoadImmediateSetsOneRegister := ldb_writesOneRegister

/-- Settles O25: each of the five is one write of register X, whatever X is; a flag register other than X is among the
registers kept. -/
theorem plainArithmeticWritesOneRegister : Obligations.PlainArithmeticWritesOneRegister := fun x y kk s _ =>
  ⟨addb_writesOneRegister x kk s, mov_writesOneRegister x y s, or_writesOneRegister x y s,
   and_writesOneRegister x y s, xor_writesOneRegister x y s⟩

/-- Settles O27: ADD writes the sum and then the carry, with `x[15]` as an operand or not. -/
theorem additionRecordsTheCarry : Obligations.AdditionRecordsTheCarry := fun x y s _ _ =>
  add_writesResultThenFlag x y s

/-- Settles O28: SUB and SUBN write the difference and then the no-borrow flag, with `x[15]` as an operand or not. -/
theorem subtractionRecordsNoBorrow : Obligations.SubtractionRecordsNoBorrow := fun x y s _ _ =>
  ⟨sub_writesResultThenFlag x y s, subn_writesResultThenFlag x y s⟩

end Sys2Proof.Machine

/-! ### Memory and index register (42_memory_index) -/

namespace Sys2Proof.Machine

theorem Byte.toWord_toNat (v : Byte) : (Byte.toWord v).toNat = v.toNat :=
  BitVec.toNat_setWidth_of_le (by decide)

/-- A sum with a register value in `I` wraps at 65536 (R143). -/
theorem word_add_byte_toNat (w : Word) (v : Byte) : (w + Byte.toWord v).toNat = (w.toNat + v.toNat) % 65536 := by
  rw [BitVec.toNat_add, Byte.toWord_toNat]

/-- Settles O31: both are one write of `I`, the zero-extended address or the sum modulo 65536. -/
theorem indexIsLoadedAndAdded : Obligations.IndexIsLoadedAndAdded := fun nnn x s =>
  ⟨⟨s.setIdx nnn.toWord, rfl, Addr12.toWord_toNat nnn, onlyChanges_setIdx s _⟩,
   ⟨s.setIdx (s.idx + (s.reg x).toWord), rfl, word_add_byte_toNat s.idx (s.reg x), onlyChanges_setIdx s _⟩⟩

end Sys2Proof.Machine

/-! ### The random byte (43_random R160; log 1) -/

namespace Sys2Proof.Machine

/-- The random byte reaches RND alone. -/
theorem execWith_eq_exec {i : Instr} (hi : i.mnemonic ≠ "RND") (rnd : Byte) (s : State) :
    execWith rnd i s = exec i s := by
  cases i with
  | rnd => exact absurd rfl hi
  | _ => rfl

/-! #### Another count in the draw counter -/

/-- The state with `d` free random bytes counted as drawn, as in `Obligations.OnlyRndUsesTheRandomByte`. -/
def State.setDraws (s : State) (d : Nat) : State := { s with draws := d }

@[simp] theorem State.setDraws_idx (s : State) (d : Nat) : (s.setDraws d).idx = s.idx := rfl
@[simp] theorem State.setDraws_pc (s : State) (d : Nat) : (s.setDraws d).pc = s.pc := rfl
@[simp] theorem State.setDraws_selectedKey (s : State) (d : Nat) (x : RegIndex) :
    (s.setDraws d).selectedKey x = s.selectedKey x := rfl
@[simp] theorem State.setDraws_lowestPressed (s : State) (d : Nat) :
    (s.setDraws d).lowestPressed = s.lowestPressed := rfl

theorem State.setDraws_skipIf (s : State) (d : Nat) (c : Bool) : (s.setDraws d).skipIf c = (s.skipIf c).setDraws d := by
  cases c <;> rfl

theorem State.setDraws_push? (s : State) (d : Nat) (v : Word) :
    (s.setDraws d).push? v = (s.push? v).map (·.setDraws d) := by
  unfold State.push?
  rw [apply_dite (Option.map _)]
  rfl

theorem State.setDraws_pop? (s : State) (d : Nat) :
    (s.setDraws d).pop? = s.pop?.map fun popped => (popped.1, popped.2.setDraws d) := by
  unfold State.pop?
  rw [apply_dite (Option.map _)]
  rfl

/-- The result with the draw counter of the state it goes on with, if it goes on, set to `d`. -/
def setDrawsOfNext (d : Nat) : Result → Result
  | .next t => .next (t.setDraws d)
  | .fault f => .fault f
  | .refused r => .refused r

theorem faultOf_setDrawsOfNext (d : Nat) (r : Result) : faultOf (setDrawsOfNext d r) = faultOf r := by
  cases r <;> rfl

theorem nextOf_setDrawsOfNext (d : Nat) (r : Result) :
    nextOf (setDrawsOfNext d r) = (nextOf r).map (·.setDraws d) := by
  cases r <;> rfl

/-! #### No instruction but RND reads or writes the draw counter -/

/-- Setting the draw counter before is setting it after, so the counter is neither read nor written. -/
def IgnoresDraws (instr : State → Result) : Prop := ∀ s d, instr (s.setDraws d) = setDrawsOfNext d (instr s)

theorem storeThroughIndex_setDraws (p : FontWritePolicy) (i : Instr) (vals : List Byte) (s : State) (d : Nat) :
    storeThroughIndex p i vals (s.setDraws d) = setDrawsOfNext d (storeThroughIndex p i vals s) := by
  unfold storeThroughIndex
  rw [State.setDraws_idx]
  cases firstFailing (writeCheck p) s.idx.toNat vals.length <;> rfl

theorem loadThroughIndex_setDraws (i : Instr) (n : Nat) {s : State} {d : Nat} {use use' : List Byte → State}
    (huse : ∀ bytes, use' bytes = (use bytes).setDraws d) :
    loadThroughIndex i n (s.setDraws d) use' = setDrawsOfNext d (loadThroughIndex i n s use) := by
  obtain rfl := funext huse
  unfold loadThroughIndex
  rw [State.setDraws_idx]
  cases firstFailing (readCheck .read) s.idx.toNat n <;> rfl

theorem execCall_ignoresDraws (nnn : Addr12) : IgnoresDraws (execCall nnn) := fun s d => by
  unfold execCall
  rw [State.setDraws_pc, State.setDraws_push?]
  cases s.push? s.pc <;> rfl

theorem execRet_ignoresDraws : IgnoresDraws execRet := fun s d => by
  unfold execRet
  rw [State.setDraws_pop?]
  cases s.pop? <;> rfl

theorem execSkp_ignoresDraws (x : RegIndex) : IgnoresDraws (execSkp x) := fun s d => by
  unfold execSkp
  rw [State.setDraws_selectedKey]
  cases s.selectedKey x with
  | some k => exact congrArg Host.Outcome.next (s.setDraws_skipIf d _)
  | none => rfl

theorem execSknp_ignoresDraws (x : RegIndex) : IgnoresDraws (execSknp x) := fun s d => by
  unfold execSknp
  rw [State.setDraws_selectedKey]
  cases s.selectedKey x with
  | some k => exact congrArg Host.Outcome.next (s.setDraws_skipIf d _)
  | none => rfl

theorem execWkey_ignoresDraws (x : RegIndex) : IgnoresDraws (execWkey x) := fun s d => by
  unfold execWkey
  rw [State.setDraws_lowestPressed]
  cases s.lowestPressed <;> rfl

theorem execDrw_ignoresDraws (x y : RegIndex) (n : RowCount) : IgnoresDraws (execDrw x y n) := fun _ _ =>
  loadThroughIndex_setDraws _ _ fun _ => rfl

theorem execLdm_ignoresDraws (x : RegIndex) : IgnoresDraws (execLdm x) := fun _ _ =>
  loadThroughIndex_setDraws _ _ fun _ => rfl

/-- Most instructions have one outcome and update other fields than the counter; the rest choose theirs by the stack,
the keys or `I`, which the counter does not touch. -/
theorem exec_ignoresDraws {i : Instr} (hi : i.mnemonic ≠ "RND") : IgnoresDraws (exec i) := fun s d => by
  cases i with
  | rnd => exact absurd rfl hi
  | call nnn => exact execCall_ignoresDraws nnn s d
  | ret => exact execRet_ignoresDraws s d
  | seb | sneb | se | sne => exact congrArg Host.Outcome.next (s.setDraws_skipIf d _)
  | skp x => exact execSkp_ignoresDraws x s d
  | sknp x => exact execSknp_ignoresDraws x s d
  | wkey x => exact execWkey_ignoresDraws x s d
  | drw x y n => exact execDrw_ignoresDraws x y n s d
  | ldm x => exact execLdm_ignoresDraws x s d
  | bcd | stm => exact storeThroughIndex_setDraws _ _ _ s d
  | _ => rfl

/-- Settles O13: STEP's byte reaches RND alone, and every other instruction commutes with setting the draw counter. -/
theorem onlyRndUsesTheRandomByte : Obligations.OnlyRndUsesTheRandomByte := fun i s hi =>
  ⟨fun rnd => execWith_eq_exec hi rnd s, fun d => by
    have hexec : exec i { s with draws := d } = setDrawsOfNext d (exec i s) := exec_ignoresDraws hi s d
    rw [hexec]
    exact ⟨faultOf_setDrawsOfNext d _, nextOf_setDrawsOfNext d _⟩⟩

end Sys2Proof.Machine

/-! ### The display (44_display) -/

namespace Sys2Proof.Machine

/-! #### The drawing loop, pixel by pixel -/

/-- The loop ends with `collided` set exactly when some pixel went from on to off: those are the lit pixels that were on
(R168). -/
theorem drawRows_collided_iff {bytes : List Byte} (hlen : bytes.length ≤ 32) (vx vy : Nat) (fb : Framebuffer) :
    (drawRows vx vy bytes (fb, false)).2 = true ↔
      ∃ col row, fb.pixel col row = true ∧ (drawRows vx vy bytes (fb, false)).1.pixel col row = false := by
  obtain ⟨hpixel, hcollided⟩ := drawRows_spec vx vy bytes hlen (fb, false)
  rw [hcollided]
  constructor
  · rintro (hfalse | ⟨col, row, hlit, hon⟩)
    · cases hfalse
    · exact ⟨col, row, hon, by rw [(hpixel col row).1 hlit, hon, Bool.not_true]⟩
  · rintro ⟨col, row, hon, hoff⟩
    refine .inr ⟨col, row, ?_, hon⟩
    by_contra hunlit
    rw [(hpixel col row).2 hunlit, hon] at hoff
    cases hoff

/-- A sprite drawn on its own drawing inverts each lit pixel back, whatever `collided` was at the start of either
drawing. -/
theorem drawRows_drawRows_pixel {bytes : List Byte} (hlen : bytes.length ≤ 32) (vx vy : Nat) (d : Drawing)
    (collided : Bool) (col : Fin 64) (row : Fin 32) :
    (drawRows vx vy bytes ((drawRows vx vy bytes d).1, collided)).1.pixel col row = d.1.pixel col row := by
  obtain ⟨hlitFirst, hunlitFirst⟩ := (drawRows_spec vx vy bytes hlen d).1 col row
  obtain ⟨hlitSecond, hunlitSecond⟩ :=
    (drawRows_spec vx vy bytes hlen ((drawRows vx vy bytes d).1, collided)).1 col row
  by_cases hlit : lit vx vy bytes col row
  · rw [hlitSecond hlit, hlitFirst hlit, Bool.not_not]
  · rw [hunlitSecond hlit, hunlitFirst hlit]

/-! #### All a DRW can do -/

/-- The rows of the `n`-row sprite at `I`. -/
def State.spriteRows (s : State) (n : RowCount) : List Byte := s.mem.readBytes s.idx.toNat n.val

/-- What the drawing loop of DRW ends with. -/
def State.drawing (s : State) (x y : RegIndex) (n : RowCount) : Drawing :=
  drawRows (s.reg x).toNat (s.reg y).toNat (s.spriteRows n) (s.fb, false)

/-- The state a DRW that completes goes on with. -/
def State.drawn (s : State) (x y : RegIndex) (n : RowCount) : State :=
  (s.setFb (s.drawing x y n).1).setFlag (s.drawing x y n).2

@[simp] theorem State.drawn_fb (s : State) (x y : RegIndex) (n : RowCount) :
    (s.drawn x y n).fb = (s.drawing x y n).1 := rfl
@[simp] theorem State.drawn_spriteRows (s : State) (x y : RegIndex) (n m : RowCount) :
    (s.drawn x y n).spriteRows m = s.spriteRows m := rfl

/-- VF receives the collision, also where it named a coordinate (R166). -/
theorem State.drawn_reg_flag (s : State) (x y : RegIndex) (n : RowCount) :
    (s.drawn x y n).reg 15 = flagByte (s.drawing x y n).2 := by
  rw [State.drawn, State.setFlag_reg, if_pos rfl]

theorem State.drawn_reg_of_ne (s : State) (x y : RegIndex) (n : RowCount) {r : RegIndex} (h : r ≠ 15) :
    (s.drawn x y n).reg r = s.reg r :=
  State.setFlag_reg_of_ne _ h _

/-- A sprite has at most 15 rows, so no two of its rows share a screen row. -/
theorem State.spriteRows_length_le (s : State) (n : RowCount) : (s.spriteRows n).length ≤ 32 := by
  rw [State.spriteRows, Memory.readBytes_length]
  omega

/-- DRW completes exactly when the sprite lies inside memory or has no rows. -/
theorem exec_drw_eq_next_iff {x y : RegIndex} {n : RowCount} {s t : State} :
    exec (.drw x y n) s = .next t ↔ (n.val = 0 ∨ s.idx.toNat + n.val ≤ 4096) ∧ t = s.drawn x y n := by
  change execDrw x y n s = .next t ↔ _
  unfold execDrw
  obtain ⟨hin, hnext⟩ | ⟨hrows, hout, hfault⟩ := loadThroughIndex_cases (.drw x y n) n.val s _
  · rw [hnext]
    exact ⟨fun h => ⟨hin, (Host.Outcome.next.inj h).symm⟩, fun ⟨_, ht⟩ => congrArg Host.Outcome.next ht.symm⟩
  · rw [hfault]
    exact ⟨nofun, fun ⟨hin, _⟩ => by omega⟩

/-! #### The obligations -/

/-- Settles O42: VF is the byte of `collided`, which says whether some pixel went from on to off. -/
theorem drawFlagIsTheUnionOfCollisions : Obligations.DrawFlagIsTheUnionOfCollisions := by
  intro x y n s t hexec
  obtain ⟨-, rfl⟩ := exec_drw_eq_next_iff.mp hexec
  have hcollided : (s.drawing x y n).2 = true ↔
      ∃ col row, s.fb.pixel col row = true ∧ (s.drawn x y n).fb.pixel col row = false :=
    drawRows_collided_iff (s.spriteRows_length_le n) _ _ s.fb
  rw [State.drawn_reg_flag, flagByte_toNat, ← hcollided]
  exact ⟨fun h => if_pos h, fun h => if_neg h⟩

/-- Settles O43: the first DRW keeps the sprite, `I` and both coordinates, so the second draws the same sprite at the same
place, on the first drawing. -/
theorem drawingTwiceRestoresTheScreen : Obligations.DrawingTwiceRestoresTheScreen := by
  intro x y n s t hx hy hexec
  obtain ⟨hin, rfl⟩ := exec_drw_eq_next_iff.mp hexec
  refine ⟨(s.drawn x y n).drawn x y n, exec_drw_eq_next_iff.mpr ⟨hin, rfl⟩, fun col row => ?_⟩
  have hsecond : (s.drawn x y n).drawing x y n =
      drawRows (s.reg x).toNat (s.reg y).toNat (s.spriteRows n) ((s.drawing x y n).1, false) := by
    rw [State.drawing, State.drawn_reg_of_ne s x y n hx, State.drawn_reg_of_ne s x y n hy, State.drawn_spriteRows,
      State.drawn_fb]
  rw [State.drawn_fb, hsecond]
  exact drawRows_drawRows_pixel (s.spriteRows_length_le n) _ _ (s.fb, false) false col row

end Sys2Proof.Machine

/-! ### The timers (46_timers) -/

namespace Sys2Proof.Machine

/-- Settles O46: LDDT is one write of register X; STDT and STST are one write of their timer each. -/
theorem timerInstructionsMoveWholeValues : Obligations.TimerInstructionsMoveWholeValues := fun x s =>
  ⟨writesOneRegister_of_setReg (v := s.dt) rfl rfl,
   ⟨s.setDt (s.reg x), rfl, s.setDt_dt _, onlyChanges_setDt s _⟩,
   ⟨s.setSt (s.reg x), rfl, s.setSt_st _, onlyChanges_setSt s _⟩⟩

end Sys2Proof.Machine

/-! ### No-op and clear-screen (47_noop_clear) -/

namespace Sys2Proof.Machine

/-- Settles O47: NOP goes on with the state it got, and CLS is one write of the framebuffer, the cleared one. -/
theorem nopAndClearScreen : Obligations.NopAndClearScreen := fun s =>
  ⟨⟨s, rfl, .refl _ s⟩,
   ⟨s.setFb Framebuffer.clear, rfl, fun col row => by rw [State.setFb_fb, Framebuffer.pixel_clear],
    onlyChanges_setFb s _⟩⟩

end Sys2Proof.Machine

/-! ### The errors of a step (60_exceptions R210 to R218) -/

namespace Sys2Proof.Machine

/-! #### Every result is a state or a named error -/

/-- The result is a state when no error is named, and otherwise that error; it is never a refusal. -/
inductive EndsWith : Option Fault → Result → Prop
  | next (t : State) : EndsWith none (.next t)
  | fault (f : Fault) : EndsWith (some f) (.fault f)

theorem EndsWith.eq_some {e : Option Fault} {f : Fault} (h : EndsWith e (.fault f)) : e = some f := by
  cases h
  rfl

theorem EndsWith.eq_fault {f : Fault} {r : Result} (h : EndsWith (some f) r) : r = .fault f := by
  cases h
  rfl

theorem EndsWith.ne_refused {e : Option Fault} {r : Result} (h : EndsWith e r) (q : Refusal) : r ≠ .refused q := by
  cases h <;> exact nofun

/-! #### The error of each instruction (60_exceptions R216) -/

/-- The access check an instruction fails, with the address or index that fails it. -/
def failingAccess (s : State) : Instr → Option (AccessKind × Nat)
  | .drw _ _ n => firstFailing (readCheck .read) s.idx.toNat n.val
  | .ldm x => firstFailing (readCheck .read) s.idx.toNat (x.val + 1)
  | .stm x => firstFailing (writeCheck Params.fontWritePolicy) s.idx.toNat (x.val + 1)
  | .bcd _ => firstFailing (writeCheck Params.fontWritePolicy) s.idx.toNat 3
  | .skp x | .sknp x => if (s.reg x).toNat < 16 then none else some (.key, (s.reg x).toNat)
  | _ => none

/-- The error of an instruction that fails an access check (R212; log 9). -/
def accessError (i : Instr) (s : State) (failing : Option (AccessKind × Nat)) : Option Fault :=
  failing.map fun failing => .outOfBoundsAccess s.pc0 (some (encode i)) failing.1 (BitVec.ofNat 16 failing.2)

/-- The error an instruction ends with, if it ends with one: the stack's, or that of the access check it fails. -/
def instrError (s : State) : Instr → Option Fault
  | .call nnn => if s.sp.val = 16 then some (.stackOverflow s.pc0 (encode (.call nnn))) else none
  | .ret => if s.sp.val = 0 then some (.stackUnderflow s.pc0 (encode .ret)) else none
  | i => accessError i s (failingAccess s i)

theorem storeThroughIndex_endsWith (p : FontWritePolicy) (i : Instr) (vals : List Byte) (s : State) :
    EndsWith (accessError i s (firstFailing (writeCheck p) s.idx.toNat vals.length))
      (storeThroughIndex p i vals s) := by
  unfold storeThroughIndex
  cases firstFailing (writeCheck p) s.idx.toNat vals.length with
  | none => exact .next _
  | some failing => exact .fault _

theorem loadThroughIndex_endsWith (i : Instr) (n : Nat) (s : State) (use : List Byte → State) :
    EndsWith (accessError i s (firstFailing (readCheck .read) s.idx.toNat n)) (loadThroughIndex i n s use) := by
  unfold loadThroughIndex
  cases firstFailing (readCheck .read) s.idx.toNat n with
  | none => exact .next _
  | some failing => exact .fault _

theorem execCall_endsWith (nnn : Addr12) (s : State) : EndsWith (instrError s (.call nnn)) (execCall nnn s) := by
  by_cases hfull : s.sp.val = 16
  · rw [instrError, if_pos hfull, execCall, State.push?_eq_none.mpr hfull]
    exact .fault _
  · obtain ⟨t, hpush⟩ := State.exists_push?_eq_some (by omega : s.sp.val < 16) s.pc
    rw [instrError, if_neg hfull, execCall, hpush]
    exact .next _

theorem execRet_endsWith (s : State) : EndsWith (instrError s .ret) (execRet s) := by
  unfold execRet
  cases hpop : s.pop? with
  | none =>
    rw [instrError, if_pos (State.pop?_eq_none.mp hpop)]
    exact .fault _
  | some popped =>
    have hne : s.sp.val ≠ 0 := fun hempty => by
      rw [State.pop?_eq_none.mpr hempty] at hpop
      cases hpop
    rw [instrError, if_neg hne]
    exact .next _

theorem State.selectedKey_of_lt {s : State} {x : RegIndex} (h : (s.reg x).toNat < 16) :
    s.selectedKey x = some ⟨(s.reg x).toNat, h⟩ := dif_pos h

theorem State.selectedKey_of_le {s : State} {x : RegIndex} (h : 16 ≤ (s.reg x).toNat) : s.selectedKey x = none :=
  dif_neg (not_lt.mpr h)

theorem execSkp_endsWith (x : RegIndex) (s : State) : EndsWith (instrError s (.skp x)) (execSkp x s) := by
  by_cases hkey : (s.reg x).toNat < 16
  · simp only [instrError, failingAccess, if_pos hkey, execSkp, State.selectedKey_of_lt hkey]
    exact .next _
  · simp only [instrError, failingAccess, if_neg hkey, execSkp, State.selectedKey_of_le (not_lt.mp hkey)]
    exact .fault _

theorem execSknp_endsWith (x : RegIndex) (s : State) : EndsWith (instrError s (.sknp x)) (execSknp x s) := by
  by_cases hkey : (s.reg x).toNat < 16
  · simp only [instrError, failingAccess, if_pos hkey, execSknp, State.selectedKey_of_lt hkey]
    exact .next _
  · simp only [instrError, failingAccess, if_neg hkey, execSknp, State.selectedKey_of_le (not_lt.mp hkey)]
    exact .fault _

theorem execWkey_endsWith (x : RegIndex) (s : State) : EndsWith none (execWkey x s) := by
  unfold execWkey
  cases s.lowestPressed <;> exact .next _

/-- Every instruction completes or ends with the error of `instrError`. -/
theorem exec_endsWith (i : Instr) (s : State) : EndsWith (instrError s i) (exec i s) := by
  cases i with
  | call nnn => exact execCall_endsWith nnn s
  | ret => exact execRet_endsWith s
  | drw x y n =>
    unfold exec execDrw
    exact loadThroughIndex_endsWith (.drw x y n) n.val s _
  | ldm x =>
    unfold exec execLdm
    exact loadThroughIndex_endsWith (.ldm x) (x.val + 1) s _
  | stm x =>
    have h := storeThroughIndex_endsWith Params.fontWritePolicy (.stm x) (s.regsUpTo x) s
    rwa [State.regsUpTo_length] at h
  | bcd x => exact storeThroughIndex_endsWith Params.fontWritePolicy (.bcd x) (bcdDigits (s.reg x)) s
  | skp x => exact execSkp_endsWith x s
  | sknp x => exact execSknp_endsWith x s
  | wkey x => exact execWkey_endsWith x s
  | _ => exact .next _

/-! #### What the record of an instruction's error holds -/

theorem failingAccess_kind {s : State} {i : Instr} {k : AccessKind} {a : Nat}
    (h : failingAccess s i = some (k, a)) :
    (k = .read ∧ (i.mnemonic = "DRW" ∨ i.mnemonic = "LDM")) ∨
    ((k = .write ∨ k = .romWrite) ∧ (i.mnemonic = "STM" ∨ i.mnemonic = "BCD")) ∨
    (k = .key ∧ (i.mnemonic = "SKP" ∨ i.mnemonic = "SKNP")) := by
  have hwrite {n : Nat} (hfailing : firstFailing (writeCheck Params.fontWritePolicy) s.idx.toNat n = some (k, a)) :
      k = .write ∨ k = .romWrite :=
    (firstFailing_write_eq_some hfailing).elim (fun hrom => .inr hrom.1) (fun hend => .inl hend.1)
  have hkey {x : RegIndex} (hfailing : (if (s.reg x).toNat < 16 then none else some (AccessKind.key, (s.reg x).toNat)) =
      some (k, a)) : k = .key := by
    split at hfailing <;> cases hfailing
    rfl
  cases i with
  | drw x y n => exact .inl ⟨(firstFailing_read_eq_some h).1, .inl rfl⟩
  | ldm x => exact .inl ⟨(firstFailing_read_eq_some h).1, .inr rfl⟩
  | stm x => exact .inr (.inl ⟨hwrite h, .inl rfl⟩)
  | bcd x => exact .inr (.inl ⟨hwrite h, .inr rfl⟩)
  | skp x => exact .inr (.inr ⟨hkey h, .inl rfl⟩)
  | sknp x => exact .inr (.inr ⟨hkey h, .inr rfl⟩)
  | _ => cases h

/-- All an instruction's error can be: the stack's, of CALL or RET, or that of a failed access check. -/
theorem instrError_cases {s : State} {i : Instr} {f : Fault} (h : instrError s i = some f) :
    (i.mnemonic = "CALL" ∧ f = .stackOverflow s.pc0 (encode i)) ∨
    (i.mnemonic = "RET" ∧ f = .stackUnderflow s.pc0 (encode i)) ∨
    ∃ k a, failingAccess s i = some (k, a) ∧
      f = .outOfBoundsAccess s.pc0 (some (encode i)) k (BitVec.ofNat 16 a) := by
  unfold instrError at h
  split at h
  next =>
    split at h <;> cases h
    exact .inl ⟨rfl, rfl⟩
  next =>
    split at h <;> cases h
    exact .inr (.inl ⟨rfl, rfl⟩)
  next =>
    obtain ⟨⟨k, a⟩, hfailing, rfl⟩ := Option.map_eq_some_iff.mp h
    exact .inr (.inr ⟨k, a, hfailing, rfl⟩)

theorem mayRaise_of_instrError {s : State} {i : Instr} {f : Fault} (h : instrError s i = some f) : MayRaise i f := by
  obtain ⟨hi, rfl⟩ | ⟨hi, rfl⟩ | ⟨k, a, hfailing, rfl⟩ := instrError_cases h
  · exact .inl ⟨rfl, hi⟩
  · exact .inr (.inl ⟨rfl, hi⟩)
  · simpa only [MayRaise, Fault.code, Fault.kind, Option.some.injEq, reduceCtorEq, Nat.reduceEqDiff, false_and,
      false_or] using failingAccess_kind hfailing

theorem record_of_instrError {s : State} {i : Instr} {f : Fault} (h : instrError s i = some f) :
    f.pc0 = some s.pc0 ∧ f.word = some (encode i) := by
  obtain ⟨-, rfl⟩ | ⟨-, rfl⟩ | ⟨k, a, -, rfl⟩ := instrError_cases h <;> exact ⟨rfl, rfl⟩

/-- The one error without an instruction's address is LOAD's, so the others have a code of STEP's. -/
theorem Fault.code_of_pc0 {f : Fault} {w : Word} (h : f.pc0 = some w) : 1 ≤ f.code ∧ f.code ≤ 4 := by
  cases f with
  | programTooLarge len => cases h
  | _ => simp only [Fault.code, Nat.reduceLeDiff, and_self]

/-- Settles O10: every instruction ends with a state or the error of its own checks. -/
theorem instructionsRaiseOnlyTheirErrors : Obligations.InstructionsRaiseOnlyTheirErrors := fun i s =>
  ⟨fun _ hfault => mayRaise_of_instrError (hfault ▸ exec_endsWith i s).eq_some, (exec_endsWith i s).ne_refused⟩

/-! #### The fetch and the decode phase -/

/-- A fetch of which a byte lies outside memory fails at the lowest such address (30_encoding R71, D18). -/
theorem fetch_eq_error {s : State} (h : 4095 ≤ s.pc.toNat) :
    fetch s = .error (.outOfBoundsAccess s.pc none .fetch (if s.pc.toNat = 4095 then 0x1000#16 else s.pc)) := by
  have haddr : BitVec.ofNat 16 (max s.pc.toNat 4096) = if s.pc.toNat = 4095 then 0x1000#16 else s.pc := by
    by_cases hlast : s.pc.toNat = 4095
    · rw [if_pos hlast, hlast]
      rfl
    · rw [if_neg hlast, max_eq_left (by omega), BitVec.ofNat_toNat, BitVec.setWidth_eq]
  unfold fetch
  cases hfailing : firstFailing (readCheck .fetch) s.pc.toNat 2 with
  | none =>
    have := firstFailing_read_eq_none.mp hfailing
    omega
  | some failing =>
    obtain ⟨hkind, hmax, -⟩ := firstFailing_read_eq_some hfailing
    dsimp only
    rw [hkind, hmax, haddr]

/-- Settles O7: the step ends with the fetch's error. -/
theorem fetchOutsideMemoryFaults : Obligations.FetchOutsideMemoryFaults := fun _ h => by
  simp only [step, fetch_eq_error h]

theorem step_eq_unknownOpcode {s : State} {v : Word} (hpc : s.pc.toNat ≤ 4094)
    (hdecode : decode (wordAt s s.pc.toNat) = .unknownOpcode v) : step s = .fault (.unknownOpcode s.pc v) := by
  have hfetch : fetch s = .ok (wordAt s s.pc.toNat) := fetch_eq_ok hpc
  simp only [step, hfetch, hdecode]

/-- Settles O8: the words of the six groups are those the decoder answers UnknownOpcode for (O4). -/
theorem unknownWordFaults : Obligations.UnknownWordFaults := fun _ hpc hword =>
  step_eq_unknownOpcode hpc ((unknownWordsAreTheSixGroups _).2.mpr hword)

/-! #### The record of a failed step (60_exceptions R211, R212; D9) -/

/-- The words with an ignored field decode to SHR or SHL. -/
theorem mnemonic_of_decode_shift {w : Word} {i : Instr} (h : decode w = .instr i) (h3 : w.n3.val = 8)
    (h0 : w.n0.val = 6 ∨ w.n0.val = 14) : i.mnemonic = "SHR" ∨ i.mnemonic = "SHL" := by
  rcases h0 with h0 | h0 <;> simp only [decode, h3, decodeFamily8, h0] at h <;> cases h
  · exact .inl rfl
  · exact .inr rfl

/-- An instruction with no ignored field encodes to the very word it was decoded from (log 9). -/
theorem encode_eq_of_decode {w : Word} {i : Instr} (h : decode w = .instr i) (hshr : i.mnemonic ≠ "SHR")
    (hshl : i.mnemonic ≠ "SHL") : encode i = w := by
  rw [encode_of_decode_eq_instr h]
  refine if_neg fun hshift => ?_
  obtain ⟨h3, h0⟩ := Word.and_F00F_eq_shift_iff.mp hshift
  exact (mnemonic_of_decode_shift h h3 h0).elim hshr hshl

theorem MayRaise.ne_shift {i : Instr} {f : Fault} (h : MayRaise i f) : i.mnemonic ≠ "SHR" ∧ i.mnemonic ≠ "SHL" := by
  obtain ⟨-, hi⟩ | ⟨-, hi⟩ | ⟨-, hi | hi⟩ | ⟨-, hi | hi⟩ | ⟨-, hi | hi⟩ := h <;> rw [hi] <;> decide

/-- Settles O9: the fetch's error is O7's, the decode's names `PC` and the word, and an instruction's names its own `pc0`
and encoding, which are the address and the word since SHR and SHL raise nothing. -/
theorem failedStepRecordNamesTheInstruction : Obligations.FailedStepRecordNamesTheInstruction := by
  intro s f hfault
  by_cases hpc : s.pc.toNat ≤ 4094
  · suffices hrecord : f.pc0 = some s.pc ∧ f.word = some (wordAt s s.pc.toNat) from
      ⟨hrecord.1, fun _ => hrecord.2, fun hout => absurd hpc (by omega), Fault.code_of_pc0 hrecord.1⟩
    cases hdecode : decode (wordAt s s.pc.toNat) with
    | unknownOpcode v =>
      obtain ⟨rfl, -⟩ := eq_and_not_wellFormed_of_decode_eq_unknownOpcode hdecode
      cases (step_eq_unknownOpcode hpc hdecode).symm.trans hfault
      exact ⟨rfl, rfl⟩
    | instr i =>
      have hexec := (step_eq_exec hpc hdecode).symm.trans hfault
      have herror : instrError s.advance i = some f := (hexec ▸ exec_endsWith i s.advance).eq_some
      obtain ⟨hshr, hshl⟩ := (mayRaise_of_instrError herror).ne_shift
      have hrecord := record_of_instrError herror
      rwa [State.advance_pc0, encode_eq_of_decode hdecode hshr hshl] at hrecord
  · have hout : 4095 ≤ s.pc.toNat := by omega
    cases (fetchOutsideMemoryFaults s hout).symm.trans hfault
    exact ⟨rfl, fun hin => absurd hin hpc, fun _ => ⟨rfl, rfl⟩, Fault.code_of_pc0 rfl⟩

/-! #### After an error (60_exceptions R213, R215; D8, D31) -/

/-- Settles O11: the environment gets the state from before the failed operation, with the record. -/
theorem failedOperationsChangeNothing : Obligations.FailedOperationsChangeNothing := fun s =>
  ⟨fun _ _ hfault => congrArg (settle s) hfault, fun _ _ hfault => congrArg (settle s) hfault⟩

/-- The error a STEP ends with, if it ends with one, by its three phases (R218). -/
def stepError (s : State) : Option Fault :=
  match fetch s with
  | .error f => some f
  | .ok w =>
    match decode w with
    | .unknownOpcode word => some (.unknownOpcode s.pc word)
    | .instr i => instrError s.advance i

theorem execWith_endsWith (rnd : Byte) (i : Instr) (s : State) : EndsWith (instrError s i) (execWith rnd i s) := by
  unfold execWith
  split
  next => exact .next _
  next => exact exec_endsWith _ s

/-- A STEP ends with the error of its first failing phase, whatever the random byte. -/
theorem stepWith_endsWith (rnd : Byte) (s : State) : EndsWith (stepError s) (stepWith rnd s) := by
  unfold stepError stepWith
  cases fetch s with
  | error f => exact .fault f
  | ok w =>
    dsimp only
    cases decode w with
    | unknownOpcode word => exact .fault _
    | instr i => exact execWith_endsWith rnd i s.advance

/-- The checks of a STEP read memory, the registers, `I`, `PC` and `SP`, and nothing else. -/
theorem stepError_eq {s t : State} (hmem : t.mem = s.mem) (hx : t.x = s.x) (hidx : t.idx = s.idx) (hpc : t.pc = s.pc)
    (hsp : t.sp = s.sp) : stepError t = stepError s := by
  cases s
  cases t
  subst hmem hx hidx hpc hsp
  rfl

/-- Settles O12: neither the random byte nor what TICK, READFB and SETKEY change is an input of STEP's checks. -/
theorem failedStepFailsAgain : Obligations.FailedStepFailsAgain := by
  intro s rnd rnd' f hfault
  have herror : stepError s = some f := (hfault ▸ stepWith_endsWith rnd s).eq_some
  have again {t : State} (ht : stepError t = stepError s) : stepWith rnd' t = .fault f :=
    (ht.trans herror ▸ stepWith_endsWith rnd' t).eq_fault
  exact ⟨again rfl, again (stepError_eq rfl rfl rfl rfl rfl), again rfl,
    fun _ _ => again (stepError_eq rfl rfl rfl rfl rfl)⟩

end Sys2Proof.Machine

/-! ### Control transfer and arithmetic: JPV0, the flag register as an operand, the shifts (40, 41) -/

namespace Sys2Proof.Machine

/-- The sum stays below 65536, so nothing of it is lost (40_control_transfer R104, D25). -/
theorem toWord_add_toWord_toNat (nnn : Addr12) (v : Byte) : (nnn.toWord + v.toWord).toNat = nnn.toNat + v.toNat := by
  have hnnn := nnn.isLt
  have hv := v.isLt
  rw [word_add_byte_toNat, Addr12.toWord_toNat]
  omega

/-- Settles O19: JPV0 is one write of `PC`, the sum that does not wrap. -/
theorem indexedJumpAddsRegisterZero : Obligations.IndexedJumpAddsRegisterZero := fun nnn s =>
  ⟨s.setPc (nnn.toWord + (s.reg 0).toWord), rfl, toWord_add_toWord_toNat nnn (s.reg 0), onlyChanges_setPc s _⟩

/-- Settles O26: the five write their destination alike whatever register it is. -/
theorem flagRegisterIsAPlainDestination : Obligations.FlagRegisterIsAPlainDestination := fun y kk s =>
  ⟨addb_writesOneRegister 15 kk s, mov_writesOneRegister 15 y s, or_writesOneRegister 15 y s,
   and_writesOneRegister 15 y s, xor_writesOneRegister 15 y s⟩

/-- Settles O30: the values and the flag of the three hold for every X and Y, VF included. -/
theorem flagIsReadFirstAndWrittenLast : Obligations.FlagIsReadFirstAndWrittenLast := fun x y s _ =>
  ⟨add_writesResultThenFlag x y s, sub_writesResultThenFlag x y s, subn_writesResultThenFlag x y s⟩

theorem byte_shiftRight_toNat (a : Byte) : (a >>> 1).toNat = a.toNat / 2 := by
  rw [BitVec.toNat_ushiftRight, Nat.shiftRight_one]

theorem byte_shiftLeft_toNat (a : Byte) : (a <<< 1).toNat = a.toNat * 2 % 256 := by
  rw [BitVec.toNat_shiftLeft, Nat.shiftLeft_eq, pow_one]

theorem flagByte_shiftedOutRight_toNat (a : Byte) : (flagByte (shiftedOutRight a)).toNat = a.toNat % 2 := by
  rw [flagByte_toNat, shiftedOutRight, BitVec.getLsbD, Nat.testBit_zero]
  simp only [decide_eq_true_eq]
  split <;> omega

theorem flagByte_shiftedOutLeft_toNat (a : Byte) : (flagByte (shiftedOutLeft a)).toNat = a.toNat / 128 := by
  have ha := a.isLt
  rw [flagByte_toNat, shiftedOutLeft, BitVec.getLsbD, Nat.testBit_eq_decide_div_mod_eq]
  simp only [decide_eq_true_eq]
  split <;> omega

/-- Settles O29: the result and the bit shifted out are a quotient and a remainder of `x[X]`, and the flag is written
last. -/
theorem shiftsMoveOneBitIntoTheFlag : Obligations.ShiftsMoveOneBitIntoTheFlag := fun _ _ =>
  ⟨writesResultThenFlag_of_writeResultAndFlag rfl (byte_shiftRight_toNat _) (flagByte_shiftedOutRight_toNat _),
   writesResultThenFlag_of_writeResultAndFlag rfl (byte_shiftLeft_toNat _) (flagByte_shiftedOutLeft_toNat _)⟩

end Sys2Proof.Machine

/-! ### Accesses that fail (20_memory R53, R54, R65; 45_input R181) -/

namespace Sys2Proof.Machine

/-- An instruction that fails an access check ends with the error of that check. -/
theorem exec_eq_fault_of_failingAccess {s : State} {i : Instr} {k : AccessKind} {a : Nat}
    (h : failingAccess s i = some (k, a)) :
    exec i s = .fault (.outOfBoundsAccess (s.pc - 2) (some (encode i)) k (BitVec.ofNat 16 a)) := by
  have herror : instrError s i = accessError i s (some (k, a)) := by
    cases i with
    | call | ret => cases h
    | _ => exact congrArg (accessError _ s) h
  have hends := exec_endsWith i s
  rw [herror] at hends
  exact hends.eq_fault

/-- The lowest address outside memory from `w` up. -/
theorem ofNat_max_memSize (w : Word) :
    BitVec.ofNat 16 (max w.toNat 4096) = if w.toNat ≤ 4096 then 0x1000#16 else w := by
  split
  next hle => rw [max_eq_right hle]
  next hgt => rw [max_eq_left (by omega), BitVec.ofNat_toNat, BitVec.setWidth_eq]

theorem firstFailing_read_of_end {k : AccessKind} {a n : Nat} (hn : 0 < n) (hend : 4096 < a + n) :
    firstFailing (readCheck k) a n = some (k, max a 4096) := by
  cases hfailing : firstFailing (readCheck k) a n with
  | none =>
    have := firstFailing_read_eq_none.mp hfailing
    omega
  | some failing =>
    obtain ⟨hkind, hmax, -⟩ := firstFailing_read_eq_some hfailing
    exact congrArg some (Prod.ext hkind hmax)

theorem firstFailing_write_of_font {a n : Nat} (hn : 0 < n) (hfont : a < 80) :
    firstFailing (writeCheck .fault) a n = some (.romWrite, a) := by
  obtain ⟨m, rfl⟩ := Nat.exists_eq_succ_of_ne_zero hn.ne'
  have hin : ¬ 4096 ≤ a := by omega
  have hcheck : writeCheck .fault a = some .romWrite := by
    rw [writeCheck, if_neg hin, if_pos ⟨hfont, rfl⟩]
  simp only [firstFailing, hcheck]

theorem firstFailing_write_of_end {p : FontWritePolicy} {a n : Nat} (hn : 0 < n) (hfont : 80 ≤ a)
    (hend : 4096 < a + n) : firstFailing (writeCheck p) a n = some (.write, max a 4096) := by
  cases hfailing : firstFailing (writeCheck p) a n with
  | none =>
    have := firstFailing_write_eq_none.mp hfailing
    omega
  | some failing =>
    obtain ⟨-, -, -, hlow⟩ | ⟨hkind, hmax, -⟩ := firstFailing_write_eq_some hfailing
    · omega
    · exact congrArg some (Prod.ext hkind hmax)

/-- An instruction whose first failing address is the lowest one outside memory from `I` up reports that address. -/
theorem exec_eq_fault_past_end {s : State} {i : Instr} {k : AccessKind}
    (h : failingAccess s i = some (k, max s.idx.toNat 4096)) :
    exec i s = .fault (.outOfBoundsAccess (s.pc - 2) (some (encode i)) k
      (if s.idx.toNat ≤ 4096 then 0x1000#16 else s.idx)) := by
  rw [exec_eq_fault_of_failingAccess h, ofNat_max_memSize]

/-- An instruction whose first failing address is `I` reports `I`. -/
theorem exec_eq_fault_at_idx {s : State} {i : Instr} {k : AccessKind} (h : failingAccess s i = some (k, s.idx.toNat)) :
    exec i s = .fault (.outOfBoundsAccess (s.pc - 2) (some (encode i)) k s.idx) := by
  rw [exec_eq_fault_of_failingAccess h, BitVec.ofNat_toNat, BitVec.setWidth_eq]

/-- Settles O35: below 80 the first address is in the font; a range that passes 4096 starts far above the font, so its
first failing address is the first one outside memory. -/
theorem storesOutsideWritableMemoryFault : Obligations.StoresOutsideWritableMemoryFault := fun x s =>
  ⟨fun hfont => ⟨exec_eq_fault_at_idx (firstFailing_write_of_font (Nat.succ_pos _) hfont),
      exec_eq_fault_at_idx (firstFailing_write_of_font (Nat.succ_pos _) hfont)⟩,
   fun hend => exec_eq_fault_past_end
      (firstFailing_write_of_end (p := .fault) (Nat.succ_pos _) (by omega) (by omega)),
   fun hend => exec_eq_fault_past_end
      (firstFailing_write_of_end (p := .fault) (Nat.succ_pos _) (by omega) (by omega))⟩

/-- Settles O37: both read from `I` up and report the first address outside memory. -/
theorem loadsOutsideMemoryFault : Obligations.LoadsOutsideMemoryFault := fun _ _ _ _ =>
  ⟨fun hend => exec_eq_fault_past_end (firstFailing_read_of_end (Nat.succ_pos _) (by omega)),
   fun hn hend => exec_eq_fault_past_end (firstFailing_read_of_end hn hend)⟩

end Sys2Proof.Machine

/-! ### Stores and loads through `I` (42_memory_index R144 to R146) -/

namespace Sys2Proof.Machine

/-! #### Stores -/

theorem Memory.read_writeBytes_outside {m : Memory} (h : m.wf = true) {a : Nat} {vs : List Byte}
    (ha : a + vs.length ≤ 4096) {b : Nat} (hb : b < a ∨ a + vs.length ≤ b) : (m.writeBytes a vs).read b = m.read b := by
  rw [Memory.read_writeBytes h ha, dif_neg (by omega)]

theorem storeThroughIndex_eq_next {p : FontWritePolicy} {vals : List Byte} {s : State}
    (hin : s.idx.toNat + vals.length ≤ 4096) (hfont : p = .fault → 80 ≤ s.idx.toNat) (i : Instr) :
    storeThroughIndex p i vals s = .next (s.setMem (storeBytes p s.mem s.idx.toNat vals)) := by
  have hnone := firstFailing_write_eq_none.mpr (.inr ⟨hin, hfont⟩)
  simp only [storeThroughIndex, hnone]

/-- At the default policy, a store above the font and inside memory writes all its bytes. -/
theorem storeThroughIndex_fault_eq_next {vals : List Byte} {s : State} (hfont : 80 ≤ s.idx.toNat)
    (hin : s.idx.toNat + vals.length ≤ 4096) (i : Instr) :
    storeThroughIndex .fault i vals s = .next (s.setMem (s.mem.writeBytes s.idx.toNat vals)) := by
  rw [storeThroughIndex_eq_next hin (fun _ => hfont), storeBytes_eq_writeBytes (.inr hfont)]

/-- Settles O33: above the font and inside memory STM writes its registers, and a write keeps the bytes outside its
range. -/
theorem storeMultipleWritesTheRegisters : Obligations.StoreMultipleWritesTheRegisters := by
  intro x s hwf hfont hend
  have hin : s.idx.toNat + (s.regsUpTo x).length ≤ 4096 := by
    rw [State.regsUpTo_length]
    omega
  have hexec : exec (.stm x) s = .next _ := storeThroughIndex_fault_eq_next hfont hin (.stm x)
  refine ⟨_, hexec, fun k hk => read_of_execStm_eq_next hwf hexec hk, fun a ha => ?_, exec_onlyChanges _ s _ hexec⟩
  refine Memory.read_writeBytes_outside hwf hin ?_
  rw [State.regsUpTo_length]
  omega

theorem byte_ofNat_toNat {n : Nat} (h : n < 256) : (BitVec.ofNat 8 n).toNat = n :=
  BitVec.toNat_ofNat n 8 ▸ Nat.mod_eq_of_lt h

/-- Settles O34: above the font and inside memory BCD writes its three digits, each less than 10. -/
theorem bcdStoresThreeDigits : Obligations.BcdStoresThreeDigits := by
  intro x s hwf hfont hend
  have hv := (s.reg x).isLt
  have hin : s.idx.toNat + (bcdDigits (s.reg x)).length ≤ 4096 := hend
  have hexec : exec (.bcd x) s = .next _ := storeThroughIndex_fault_eq_next hfont hin (.bcd x)
  have hdigit (k : Nat) (hk : k < 3) := Memory.read_writeBytes_add hwf hin (k := k) hk
  refine ⟨_, hexec, ?_, ?_, ?_, fun a ha => Memory.read_writeBytes_outside hwf hin ha, exec_onlyChanges _ s _ hexec⟩
  · exact (congrArg BitVec.toNat (hdigit 0 (by decide))).trans (byte_ofNat_toNat (by omega))
  · exact (congrArg BitVec.toNat (hdigit 1 (by decide))).trans (byte_ofNat_toNat (by omega))
  · exact (congrArg BitVec.toNat (hdigit 2 (by decide))).trans (byte_ofNat_toNat (by omega))

/-! #### The other font policies (20_memory R54; D11) -/

/-- Under `ignore` the bytes that would fall in the font are dropped from the front, and the rest is written from where
it belongs. -/
theorem storeBytes_ignore_eq_writeBytes (m : Memory) (a : Nat) (vs : List Byte) :
    storeBytes .ignore m a vs = m.writeBytes (max a 80) (vs.drop (80 - a)) := by
  induction vs generalizing a with
  | nil =>
    rw [List.drop_nil]
    rfl
  | cons v vs ih =>
    by_cases hfont : a < 80
    · have hskip : storeByte .ignore m a v = m := if_pos ⟨hfont, rfl⟩
      have hdrop : 80 - a = 80 - (a + 1) + 1 := by omega
      have hstart : max (a + 1) 80 = max a 80 := by omega
      rw [storeBytes, hskip, ih, hdrop, List.drop_succ_cons, hstart]
    · rw [storeBytes_eq_writeBytes (.inr (by omega)), max_eq_left (by omega), Nat.sub_eq_zero_of_le (by omega),
        List.drop_zero]

/-- Settles O38: `store` writes the whole range, and `ignore` the part of it from 80 on; a write keeps the bytes outside
its range. -/
theorem fontPoliciesIgnoreAndStore : Obligations.FontPoliciesIgnoreAndStore := by
  intro i vals s hwf hin
  refine ⟨⟨_, storeThroughIndex_eq_next (p := .store) hin nofun i, ?_⟩,
    ⟨_, storeThroughIndex_eq_next (p := .ignore) hin nofun i, ?_⟩⟩
  · rw [State.setMem_mem, storeBytes_eq_writeBytes (p := .store) (.inl nofun)]
    exact ⟨fun k hk => Memory.read_writeBytes_add hwf hin hk, fun a ha => Memory.read_writeBytes_outside hwf hin ha⟩
  · rw [State.setMem_mem, storeBytes_ignore_eq_writeBytes]
    have hkept : max s.idx.toNat 80 + (vals.drop (80 - s.idx.toNat)).length ≤ 4096 := by
      rw [List.length_drop]
      omega
    refine ⟨fun k hk habove => ?_, fun a ha => Memory.read_writeBytes_outside hwf hkept ?_⟩
    · obtain ⟨j, rfl⟩ : ∃ j, k = 80 - s.idx.toNat + j := ⟨k - (80 - s.idx.toNat), by omega⟩
      have hj : j < (vals.drop (80 - s.idx.toNat)).length := by
        rw [List.length_drop]
        omega
      have haddr : s.idx.toNat + (80 - s.idx.toNat + j) = max s.idx.toNat 80 + j := by omega
      rw [haddr, Memory.read_writeBytes_add hwf hkept hj, List.getElem_drop]
    · rw [List.length_drop]
      omega

/-! #### Loads -/

/-- Settles O36: inside memory LDM loads the bytes from `I` up into `x[0]` to `x[X]`; a register above keeps its value. -/
theorem loadMultipleReadsTheRegisters : Obligations.LoadMultipleReadsTheRegisters := by
  intro x s hend
  have hexec : exec (.ldm x) s = .next (s.setRegs (loadRegs s.x 0 (s.mem.readBytes s.idx.toNat (x.val + 1)))) := by
    have hnone : firstFailing (readCheck .read) s.idx.toNat (x.val + 1) = none :=
      firstFailing_read_eq_none.mpr (.inr hend)
    simp only [exec, execLdm, loadThroughIndex, hnone]
  refine ⟨_, hexec, fun k hk => ?_, fun k hk => execLdm_keeps_reg hk s _ hexec, exec_onlyChanges _ s _ hexec⟩
  have hloaded : 0 ≤ k.val ∧ k.val < 0 + (s.mem.readBytes s.idx.toNat (x.val + 1)).length := by
    have := Fin.le_def.mp hk
    rw [Memory.readBytes_length]
    omega
  rw [State.setRegs_reg, getElem_loadRegs _ _ _ _ k.isLt, dif_pos hloaded, Memory.getElem_readBytes, Nat.sub_zero]

/-- Settles O32: LDF is one write of `I`, and five times a byte stays below 65536. -/
theorem fontAddressIsFiveTimesTheValue : Obligations.FontAddressIsFiveTimesTheValue := fun x s => by
  refine ⟨s.setIdx (5 * (s.reg x).toWord), rfl, ?_, onlyChanges_setIdx s _⟩
  have hv := (s.reg x).isLt
  rw [State.setIdx_idx, BitVec.toNat_mul, Byte.toWord_toNat]
  exact Nat.mod_eq_of_lt (by change 5 * _ < 65536; omega)

end Sys2Proof.Machine

/-! ### Random, display and keypad (43_random, 44_display, 45_input) -/

namespace Sys2Proof.Machine

/-- RND masks the byte it is given, writes register X and counts the draw (43_random R161). -/
theorem rndWith_masks (b : Byte) (x : RegIndex) (kk : Byte) (s : State) :
    ∃ t, rndWith b x kk s = .next t ∧ t.reg x = b &&& kk ∧ (∀ r, r ≠ x → t.reg r = s.reg r) ∧
      OnlyChanges [.regs, .draws] s t := by
  refine ⟨_, rfl, ?_, fun r hr => s.setReg_reg_of_ne hr _, rndWith_onlyChanges b x kk s _ rfl⟩
  rw [State.countDraw_reg, State.setReg_reg, if_pos rfl]

/-- Settles O40: the free byte of the draw is the byte that is masked, and so is a named one. -/
theorem randomByteIsMasked : Obligations.RandomByteIsMasked := by
  refine fun x kk s => ⟨?_, fun b => rndWith_masks b x kk s⟩
  obtain ⟨t, hrnd⟩ := rndWith_masks (Config.rnd s.draws) x kk s
  exact ⟨t, Config.rnd s.draws, hrnd⟩

/-- The closed form of the sprite's pixels speaks of memory, the loop of the bytes it has read. -/
theorem lit_spriteRows_iff {s : State} {vx vy : Nat} {n : RowCount} {col : Fin 64} {row : Fin 32} :
    lit vx vy (s.spriteRows n) col row ↔ SpriteCovers s vx vy n.val col row := by
  have hbyte (r : Nat) (hr : r < (s.spriteRows n).length) : (s.spriteRows n)[r] = s.mem.read (s.idx.toNat + r) :=
    Memory.getElem_readBytes _ _ _ r hr
  have hlen : (s.spriteRows n).length = n.val := Memory.readBytes_length _ _ _
  constructor
  · rintro ⟨r, hr, c, hc, hbit, rfl, rfl⟩
    rw [hbyte] at hbit
    exact ⟨r, c, hlen ▸ hr, hc, hbit, rfl, rfl⟩
  · rintro ⟨r, c, hr, hc, hbit, hcol, hrow⟩
    have hr' := hlen.symm ▸ hr
    exact ⟨r, hr', c, hc, by rwa [hbyte], Fin.ext hcol, Fin.ext hrow⟩

/-- Settles O41: the drawing loop inverts the lit pixels of the sprite it has read, and those are the covered ones. -/
theorem drawInvertsTheCoveredPixels : Obligations.DrawInvertsTheCoveredPixels := by
  intro x y n s hin
  have hexec : exec (.drw x y n) s = .next (s.drawn x y n) := exec_drw_eq_next_iff.mpr ⟨hin, rfl⟩
  obtain ⟨hpixel, -⟩ :=
    drawRows_spec (s.reg x).toNat (s.reg y).toNat (s.spriteRows n) (s.spriteRows_length_le n) (s.fb, false)
  exact ⟨s.drawn x y n, hexec, fun col row hcovers => (hpixel col row).1 (lit_spriteRows_iff.mpr hcovers),
    fun col row huncovered => (hpixel col row).2 (mt lit_spriteRows_iff.mp huncovered),
    fun r hr => s.drawn_reg_of_ne x y n hr, exec_onlyChanges _ s _ hexec⟩

theorem State.selectedKey_eq_some {s : State} {x : RegIndex} {k : Fin 16} (h : (s.reg x).toNat = k.val) :
    s.selectedKey x = some k := by
  rw [State.selectedKey_of_lt (h ▸ k.isLt)]
  exact congrArg some (Fin.ext h)

/-- An index of 16 or more is reported as the failing address (D28). -/
theorem exec_eq_fault_of_key {s : State} {x : RegIndex} {i : Instr}
    (h : failingAccess s i = some (.key, (s.reg x).toNat)) :
    exec i s = .fault (.outOfBoundsAccess (s.pc - 2) (some (encode i)) .key ((s.reg x).setWidth 16)) := by
  rw [exec_eq_fault_of_failingAccess h, BitVec.ofNat_toNat]

/-- Settles O44: below 16 both are a skip under the selected key's flag or its negation; from 16 up both fail the key's
check. -/
theorem keySkipsAndKeyFaults : Obligations.KeySkipsAndKeyFaults := by
  refine fun x s => ⟨fun k hk => ?_, fun hout => ?_⟩
  · have hselected := State.selectedKey_eq_some hk
    have hskp : exec (.skp x) s = .next (s.skipIf s.key[k.val]) := by simp only [exec, execSkp, hselected]
    have hsknp : exec (.sknp x) s = .next (s.skipIf !s.key[k.val]) := by simp only [exec, execSknp, hselected]
    exact ⟨skipsExactlyWhen_of_skipIf hskp Iff.rfl,
      skipsExactlyWhen_of_skipIf hsknp (iff_of_eq (Bool.not_eq_true' _))⟩
  · have hfailing : (if (s.reg x).toNat < 16 then none else some (AccessKind.key, (s.reg x).toNat)) =
        some (.key, (s.reg x).toNat) := if_neg (not_lt.mpr hout)
    exact ⟨exec_eq_fault_of_key hfailing, exec_eq_fault_of_key hfailing⟩

/-- Settles O45: the least pressed key is what the scan finds, and with no key pressed it finds none. -/
theorem keyWaitTakesTheLowestOrRewinds : Obligations.KeyWaitTakesTheLowestOrRewinds := by
  refine fun x s => ⟨fun k hpressed hlowest => ?_, fun hnone => ?_⟩
  · have hfound := State.lowestPressed_eq_some.mpr ⟨hpressed, hlowest⟩
    refine writesOneRegister_of_setReg (v := BitVec.ofNat 8 k.val) ?_ (byte_ofNat_toNat (by omega))
    simp only [exec, execWkey, hfound]
  · have hscan := State.lowestPressed_eq_none.mpr hnone
    refine ⟨s.setPc (s.pc - 2), ?_, rfl, onlyChanges_setPc s _⟩
    simp only [exec, execWkey, hscan]

end Sys2Proof.Machine

/-! ### A finished program (60_exceptions R234) -/

namespace Sys2Proof.Machine

/-- Settles O48: the word decodes to the jump it encodes (O1), whose 12-bit address is the whole `PC`, so it puts back the
only field the advance changed. -/
theorem jumpToSelfIsFinal : Obligations.JumpToSelfIsFinal := by
  rintro s ⟨hpc, hfetch⟩
  have htarget : Addr12.toWord (s.pc.setWidth 12) = s.pc := by
    refine BitVec.eq_of_toNat_eq ?_
    rw [Addr12.toWord_toNat, BitVec.toNat_setWidth]
    exact Nat.mod_eq_of_lt (by omega)
  calc
    step s = exec (.jp (s.pc.setWidth 12)) s.advance := by simp only [step, hfetch, decode_encode]
    _ = .next (s.advance.setPc (Addr12.toWord (s.pc.setWidth 12))) := rfl
    _ = .next s := by rw [htarget]; rfl

end Sys2Proof.Machine

/-! ### The operations TICK, SETKEY, READFB, LOAD and RESET (60_exceptions, 70_reset_and_hazards) -/

namespace Sys2Proof.Machine

/-! #### TICK -/

theorem countDown_toNat (t : Byte) : (countDown t).toNat = t.toNat - 1 := by
  unfold countDown
  split
  next hzero => rw [hzero]; rfl
  next hpos => bv_omega

theorem beepOf_eq_true_iff {s : State} : beepOf s = true ↔ s.st.toNat = 1 := by
  rw [beepOf, beq_iff_eq, ← BitVec.toNat_inj]
  rfl

/-- Settles O49: both timers count down, and the response is `beep` on the old `ST`. -/
theorem tickCountsDownAndSignals : Obligations.TickCountsDownAndSignals := fun s =>
  ⟨tick s, beepOf s, rfl, countDown_toNat s.dt, countDown_toNat s.st, beepOf_eq_true_iff, tick_onlyChanges s⟩

/-- Settles O50: by induction on the number of TICKs, each of which counts both timers down. -/
theorem timersReachZeroAndStay : Obligations.TimersReachZeroAndStay := fun s k => by
  induction k with
  | zero => exact ⟨rfl, rfl⟩
  | succ k ih =>
    obtain ⟨hdt, hst⟩ := ih
    exact ⟨(countDown_toNat _).trans (by rw [hdt]; rfl), (countDown_toNat _).trans (by rw [hst]; rfl)⟩

/-! #### SETKEY and READFB -/

/-- Settles O51: SETKEY is one write of the key flags. -/
theorem setKeyWritesOneFlag : Obligations.SetKeyWritesOneFlag := by
  refine fun index pressed s => ⟨s.setKeyFlag index pressed, rfl, ?_, fun k hk => ?_, onlyChanges_setKeyFlag s _ _⟩
  · simp only [State.setKeyFlag_key, Vector.getElem_set_self]
  · simp only [State.setKeyFlag_key]
    exact Vector.getElem_set_ne _ _ (Fin.val_ne_of_ne hk.symm)

/-- Settles O52: element `row * 64 + col` of the flattened rows is element `col` of row `row`. -/
theorem readFbReturnsThePixels : Obligations.ReadFbReturnsThePixels := by
  refine fun s => ⟨readFb s, rfl, fun col row => ?_⟩
  have hlt : row.val * 64 + col.val < 32 * 64 := by omega
  have hrow : (row.val * 64 + col.val) / 64 = row.val := by omega
  have hcol : (row.val * 64 + col.val) % 64 = col.val := by omega
  rw [Vector.getElem?_eq_getElem hlt, readFb, Vector.getElem_flatten]
  simp only [hrow, hcol, Framebuffer.pixel]

/-! #### LOAD -/

/-- Settles O53: LOAD of an image that fits is one write of its bytes, inside memory, from 0x200 up. -/
theorem loadCopiesTheImage : Obligations.LoadCopiesTheImage := by
  intro bytes s hwf hfits
  have hload : load bytes s = .next (s.setMem (s.mem.writeBytes 0x200 bytes)) := if_neg (not_lt.mpr hfits)
  have hin : 0x200 + bytes.length ≤ 4096 := by omega
  exact ⟨_, congrArg (settle s) hload, fun k hk => Memory.read_writeBytes_add hwf hin hk,
    fun a ha => Memory.read_writeBytes_outside hwf hin ha, onlyChanges_setMem s _⟩

/-- Settles O54: the length is checked before any byte is written. -/
theorem loadTooLargeWritesNothing : Obligations.LoadTooLargeWritesNothing := fun bytes s hlarge => by
  have hload : load bytes s = .fault (.programTooLarge bytes.length) := if_pos hlarge
  exact congrArg (settle s) hload

/-! #### RESET -/

/-- Above the font, memory is zero at reset. -/
theorem resetByte_of_le {a : Nat} (h : 80 ≤ a) : resetByte a = 0 :=
  List.getD_eq_default _ _ h

/-- Settles O55: RESET gives the state after reset but for the draw counter, with nothing listed in memory. -/
theorem resetSetsEveryItem : Obligations.ResetSetsEveryItem := fun s =>
  ⟨doReset s, rfl, rfl, rfl, rfl, rfl, rfl, fun _ => Vector.getElem_replicate _, fun _ => Vector.getElem_replicate _,
   fun _ => Vector.getElem_replicate _, Framebuffer.pixel_clear, fun _ ha => resetByte_of_le ha, rfl, rfl, rfl⟩

end Sys2Proof.Machine
